-- ==== Sys2Proof/Word.lean ====
section
/-!
DEFINITION. The word types of the block: the 8-bit byte, the 32-bit argument and read word, the 26-bit decoded data
(spec/00_scope.md R6, R8, R10: every value is an unsigned number of a stated width).
-/

namespace Sys2Proof

/-- An output byte, a command byte or a host read address. -/
abbrev Byte := BitVec 8

/-- A 32-bit word: a command's argument, a codeword, a word of the host read space. -/
abbrev Word := BitVec 32

/-- The decoded bit sequence of one codeword, its first bit in bit 25 (spec/40_codeword_decoder.md R97). -/
abbrev Data := BitVec 26

/-- `OBUF_BYTES` (spec/00_scope.md R6). -/
abbrev obufBytes : Nat := 416

/-- `MAX_PAYLOAD` (spec/00_scope.md R6). -/
abbrev maxPayload : Nat := 512

/-- `MAX_CW` (spec/00_scope.md R6). -/
abbrev maxCodewords : Nat := 128

end Sys2Proof
end

