-- ==== Sys2Proof/Syntax.lean ====
section
/-!
DEFINITION. The commands of the block (spec/30_encoding.md R71 to R73), the raw command of the port, the listing forms of
R77, and what the host can do at the block's ports (R70, spec/20_memory.md R55, R58, spec/70_reset_and_hazards.md R180).
-/

namespace Sys2Proof

/-- The commands, one constructor per row of spec/opcode_table.json. A constructor carries what its row does not ignore:
every operand has exactly the width of its field, so every term of this type is a command of the block (log 20). -/
inductive Instr where
  /-- NOP, no operation (spec/42_block_control.md R131). -/
  | nop
  /-- XRST, start a new transfer (spec/42_block_control.md R132). -/
  | xrst
  /-- BBEGIN, open a block of `len` payload bytes (spec/42_block_control.md R133). -/
  | bbegin (len : BitVec 16)
  /-- CWPUSH (`last = false`) and CWPUSH.L (`last = true`), push one codeword (spec/41_accumulator.md R119). -/
  | cwpush (last : Bool) (w : Word)
  /-- BCOMMIT, close the block and deliver its result (spec/42_block_control.md R134). -/
  | bcommit
  /-- BABORT, abandon the open block (spec/42_block_control.md R135). -/
  | babort
  /-- CWDEC, decode one codeword for status only (spec/40_codeword_decoder.md R103). -/
  | cwdec (w : Word)
deriving DecidableEq, Repr

/-- A raw command as the port carries it: the byte `cmd[7:0]` and the word `arg[31:0]` (spec/30_encoding.md R71). -/
structure Command where
  cmd : Byte
  arg : Word
deriving DecidableEq, Repr

/-- One line of the spec's listing syntax (spec/30_encoding.md R77): the commands as they are written, and the host read
`RD A`, which is a host action and has no encoding. Numbers are as written, their ranges are `Listing.wellFormed`. -/
inductive Listing where
  | nop
  | xrst
  | bbegin (len : Nat)
  | cwpush (w : Nat)
  | cwpushL (w : Nat)
  | bcommit
  | babort
  | cwdec (w : Nat)
  | rd (a : Nat)
deriving DecidableEq, Repr

/-- What the host does at the ports, one transaction each (log 1). -/
inductive HostEvent where
  /-- Presents a command and holds it until it has completed (spec/70_reset_and_hazards.md R183, R186). -/
  | command (cmd : Byte) (arg : Word)
  /-- Reads the word at `addr` while no command is in progress (spec/20_memory.md R55, R57). -/
  | read (addr : Byte)
  /-- Reads the word at `addr` while a command is in progress (spec/20_memory.md R58, spec/70_reset_and_hazards.md R184). -/
  | readDuring (addr : Byte)
  /-- Raises `rst`, between commands or during one, which is then abandoned (spec/70_reset_and_hazards.md R180). -/
  | reset
deriving DecidableEq, Repr

end Sys2Proof
end

