-- ==== Sys2Proof/WellFormed.lean ====
section
/-!
DEFINITION. Which raw commands and which listing lines are legal. A term of `Instr` needs no check of its own (log 20).
-/

namespace Sys2Proof

/-- The 8 legal command bytes, 0x00 to 0x06 and 0x13 (spec/30_encoding.md R74). -/
def legalBytes : List Byte := [0x00, 0x01, 0x02, 0x03, 0x04, 0x05, 0x06, 0x13]

/-- A raw command is legal when its byte is one of the 8 legal ones, whatever its argument (spec/30_encoding.md R74). -/
def Command.wellFormed (c : Command) : Bool := legalBytes.contains c.cmd

/-- The operand ranges of the listing syntax: `len` is 0..65535, a codeword is a 32-bit word, a read address is one of the
256 words of the read space (spec/30_encoding.md R77, spec/20_memory.md R55). -/
def Listing.wellFormed : Listing → Bool
  | .bbegin len => len < 2 ^ 16
  | .cwpush w => w < 2 ^ 32
  | .cwpushL w => w < 2 ^ 32
  | .cwdec w => w < 2 ^ 32
  | .rd a => a < 2 ^ 8
  | .nop => true
  | .xrst => true
  | .bcommit => true
  | .babort => true

end Sys2Proof
end

