-- ==== Sys2Proof/Decode.lean ====
section
/-!
DEFINITION. Command decode, total on every command byte (spec/30_encoding.md R76), the encoder, the assembler of the listing
syntax (R77), and the opcode table's numbering of a command's bits (log 14).
-/

namespace Sys2Proof

/-- Why a command byte is illegal, one name per clause of spec/30_encoding.md R74. -/
inductive Illegal where
  /-- (a) `RSV ≠ 0`. -/
  | reservedBits
  /-- (b) `OP` is 0x7 to 0xF. -/
  | opcode
  /-- (c) `L = 1` and `OP ≠ 3`. -/
  | misplacedFlag
deriving DecidableEq, Repr

/-- `OP = cmd[3:0]` (spec/30_encoding.md R71). -/
def Command.op (c : Command) : BitVec 4 := c.cmd.extractLsb' 0 4

/-- `L = cmd[4]` (spec/30_encoding.md R71). -/
def Command.flagL (c : Command) : Bool := c.cmd.getLsbD 4

/-- `RSV = cmd[7:5]` (spec/30_encoding.md R71). -/
def Command.rsv (c : Command) : BitVec 3 := c.cmd.extractLsb' 5 3

/-- `LEN = ARG[15:0]`, the payload length of BBEGIN (spec/30_encoding.md R72). -/
def Command.len (c : Command) : BitVec 16 := c.arg.extractLsb' 0 16

/-- `DecodeCmd` of spec/30_encoding.md R76, its tests in the order of the rule. -/
def decodeCmd (c : Command) : Except Illegal Instr :=
  if c.rsv ≠ 0 then .error .reservedBits
  else if c.flagL = true ∧ c.op ≠ 3 then .error .misplacedFlag
  else if c.op = 0 then .ok .nop
  else if c.op = 1 then .ok .xrst
  else if c.op = 2 then .ok (.bbegin c.len)
  else if c.op = 3 then .ok (.cwpush c.flagL c.arg)
  else if c.op = 4 then .ok .bcommit
  else if c.op = 5 then .ok .babort
  else if c.op = 6 then .ok (.cwdec c.arg)
  else .error .opcode

/-- The raw command of a command: its byte from the opcode map (spec/30_encoding.md R73), an ignored argument written as 0
(R77). -/
def encode : Instr → Command
  | .nop => ⟨0x00, 0⟩
  | .xrst => ⟨0x01, 0⟩
  | .bbegin len => ⟨0x02, len.setWidth 32⟩
  | .cwpush last w => ⟨if last then 0x13 else 0x03, w⟩
  | .bcommit => ⟨0x04, 0⟩
  | .babort => ⟨0x05, 0⟩
  | .cwdec w => ⟨0x06, w⟩

/-- The host action that one listing line stands for (spec/30_encoding.md R77). -/
def assemble : Listing → HostEvent
  | .nop => .command 0x00 0
  | .xrst => .command 0x01 0
  | .bbegin len => .command 0x02 (BitVec.ofNat 32 len)
  | .cwpush w => .command 0x03 (BitVec.ofNat 32 w)
  | .cwpushL w => .command 0x13 (BitVec.ofNat 32 w)
  | .bcommit => .command 0x04 0
  | .babort => .command 0x05 0
  | .cwdec w => .command 0x06 (BitVec.ofNat 32 w)
  | .rd a => .read (BitVec.ofNat 8 a)

/-- The raw command whose bits are numbered as spec/opcode_table.json numbers them: `cmd[7:0]` first, then `arg[31:0]`; bits
from `nbits` up are 0 (log 14). -/
def Command.ofTable (nbits w : Nat) : Command :=
  ⟨BitVec.ofNat 8 (w % 2 ^ nbits), BitVec.ofNat 32 ((w % 2 ^ nbits) >>> 8)⟩

/-- The command the decoder reads from table-numbered bits; none where the byte is illegal. -/
def decodeTableWord (nbits w : Nat) : Option Instr :=
  match decodeCmd (Command.ofTable nbits w) with
  | .ok i => some i
  | .error _ => none

end Sys2Proof
end

