-- ==== Sys2Proof/Machine/State.lean ====
section
/-!
DEFINITION. The state of the block (spec/10_state.md R23), its ports' registers (spec/30_encoding.md R70), the host actions to
come, the reasons a step can stop, and the state right after reset (spec/70_reset_and_hazards.md R180).
-/

namespace Sys2Proof.Machine

/-- The response codes of spec/60_exceptions.md R160; codes 5 to 7 are never written (log 2). -/
inductive Resp where
  | ok
  | uncorr
  | malformed
  | seq
  | illegal
deriving DecidableEq, Repr

/-- The sequencing states of spec/10_state.md R27; encoding value 3 is never written (log 2). -/
inductive XState where
  | ready
  | inblk
  | done
deriving DecidableEq, Repr

/-- The classes of a decoded codeword (spec/40_codeword_decoder.md R90). -/
inductive DClass where
  | clean
  | corrected
  | p32
  | uncorr
deriving DecidableEq, Repr

/-- A command that has been accepted and has not completed, with the clock edges still to come
(spec/70_reset_and_hazards.md R186). -/
structure Inflight where
  command : Command
  left : Nat
deriving DecidableEq, Repr

/-- OBUF as its written cells, addresses rising; a byte no command has written has no value (log 3). -/
abbrev Memory := List Host.Cell

/-- The machine: the registers of spec/10_state.md R23 under their own names, the registers behind the output ports, and
the two fields that are the model's own (`host`, `draws`). -/
structure State where
  /-- RESP, the response of the most recent command other than NOP (spec/10_state.md R29). -/
  resp : Resp
  /-- XSTATE (spec/10_state.md R27). -/
  xstate : XState
  /-- BERR (spec/10_state.md R36). -/
  berr : Bool
  /-- LSEEN (spec/10_state.md R36). -/
  lseen : Bool
  /-- CWREM, codewords still expected (spec/10_state.md R23). -/
  cwrem : BitVec 8
  /-- WPTR, next free OBUF index of the block in progress (spec/10_state.md R23). -/
  wptr : BitVec 9
  /-- OCNT, valid bytes of the last committed block (spec/10_state.md R23). -/
  ocnt : BitVec 9
  /-- CLEN, committed leftover length (spec/10_state.md R24). -/
  clen : BitVec 3
  /-- CBITS, committed leftover bits (spec/10_state.md R24). -/
  cbits : BitVec 7
  /-- WLEN, working leftover length (spec/10_state.md R37). -/
  wlen : BitVec 3
  /-- WBITS, working leftover bits (spec/10_state.md R37). -/
  wbits : BitVec 7
  /-- DCLASS (spec/10_state.md R28). -/
  dclass : DClass
  /-- DOPF (spec/10_state.md R28). -/
  dopf : Bool
  /-- DSYN (spec/10_state.md R28). -/
  dsyn : BitVec 5
  /-- DCPOS (spec/10_state.md R28). -/
  dcpos : BitVec 6
  /-- DDATA (spec/10_state.md R28). -/
  ddata : Data
  /-- OBUF (spec/20_memory.md R50). -/
  obuf : Memory
  /-- The command in progress, if one is (spec/70_reset_and_hazards.md R186). -/
  inflight : Option Inflight
  /-- The port `done` (spec/30_encoding.md R70; log 8). -/
  done : Bool
  /-- The port `rd_data`, the word of the last host read (spec/70_reset_and_hazards.md R187; log 7). -/
  rdData : Word
  /-- The host's actions to come, oldest first (the model's own; log 1). -/
  host : List HostEvent
  /-- How many free draws have been taken (the model's own; log 4). -/
  draws : Nat
deriving DecidableEq, Repr

/-- Why a step stops. -/
inductive Fault where
  /-- Raised by CWPUSH when a byte would be written at this OBUF index, past 415: there is no such byte
  (spec/20_memory.md R50). No run from reset gets there (spec/41_accumulator.md R118, spec/93_implementation_defined.md
  I11). Safe: the model stops in states the block cannot be in (log 6). -/
  | obufRange (index : Nat)
deriving DecidableEq, Repr

/-- Why an instruction has no meaning. -/
inductive Refusal where
  /-- Raised by an arm of `exec` whose instruction has no meaning yet; no arm is one. Safe. -/
  | notModelled (mnemonic : String)
deriving DecidableEq, Repr

/-- The machine right after reset (spec/70_reset_and_hazards.md R180, spec/10_state.md R23): every register 0 and READY, OBUF
with nothing written, no command in progress, no `done` pulse. `rdData`, `host` and `draws` are DESIGN CHOICE (log 7, 17). -/
def State.reset : State where
  resp := .ok
  xstate := .ready
  berr := false
  lseen := false
  cwrem := 0
  wptr := 0
  ocnt := 0
  clen := 0
  cbits := 0
  wlen := 0
  wbits := 0
  dclass := .clean
  dopf := false
  dsyn := 0
  dcpos := 0
  ddata := 0
  obuf := []
  inflight := none
  done := false
  rdData := 0
  host := []
  draws := 0

end Sys2Proof.Machine
end

