-- ==== Sys2Proof/Machine/Ops.lean ====
section
/-!
DEFINITION. The named operations over OBUF and the registers, and the two ways a command ends: `respond` and `reject`
(spec/00_scope.md R9). `reject` is the block's one way to meet an error; it has no trap entry, no saved state and so no return
(spec/60_exceptions.md R162, R166).
-/

namespace Sys2Proof.Machine

/-- The outcome of a command on the block. -/
abbrev Result := Host.Outcome State Fault Refusal

/-! ### OBUF (spec/20_memory.md R50) -/

/-- The byte last written at index `a`; none where no command has written one (log 3). -/
def Memory.get : Memory → Nat → Option Byte
  | [], _ => none
  | (k, b) :: m, a => if k = a then some b else Memory.get m a

/-- OBUF with byte `v` at index `a`, its cells kept in rising order. -/
def Memory.set : Memory → Nat → Byte → Memory
  | [], a, v => [(a, v)]
  | (k, b) :: m, a, v =>
    if a < k then (a, v) :: (k, b) :: m
    else if a = k then (a, v) :: m
    else (k, b) :: Memory.set m a v

/-- OBUF with `bytes` written one after another from index `a` up (spec/20_memory.md R54). -/
def Memory.setAll : Memory → Nat → List Byte → Memory
  | m, _, [] => m
  | m, a, b :: bs => Memory.setAll (m.set a b) (a + 1) bs

/-- The canonical form: indices strictly rising and inside 0..415. No listed entry can equal what an unlisted index reads as,
since an unlisted index has no value (log 3). -/
abbrev Memory.wf (m : Memory) : Prop := m.Pairwise (fun a b => a.1 < b.1) ∧ ∀ c ∈ m, c.1 < obufBytes

/-- The state with `m` as OBUF. -/
def State.withObuf (m : Memory) (s : State) : State := { s with obuf := m }

/-- `MemWrite(OBUF, base + j, 1, bytes[j])` for each `j`; an index past 415 does not exist (spec/00_scope.md R9,
spec/20_memory.md R50; log 6). -/
def obufStore (base : Nat) (bytes : List Byte) (s : State) : Result :=
  if base + bytes.length ≤ obufBytes then .next (s.withObuf (s.obuf.setAll base bytes))
  else .fault (.obufRange (base + bytes.length - 1))

/-! ### How a command ends -/

/-- `RESP <- code`. -/
def State.withResp (code : Resp) (s : State) : State := { s with resp := code }

/-- `respond code`: the command ends normally after its other writes (spec/00_scope.md R9). -/
def respond (code : Resp) (s : State) : Result := .next (s.withResp code)

/-- `raise Reject(code)`: RESP is written and nothing else, so `s` is the state before the command
(spec/60_exceptions.md R162). -/
def reject (code : Resp) (s : State) : Result := .next (s.withResp code)

/-! ### Register updates shared by commands -/

/-- Every register of spec/10_state.md R23 but OBUF at its reset value, as XRST and the reset event write them
(spec/42_block_control.md R132, spec/70_reset_and_hazards.md R180). -/
def State.clearRegisters (s : State) : State :=
  { s with
    resp := .ok, xstate := .ready, berr := false, lseen := false, cwrem := 0, wptr := 0, ocnt := 0, clen := 0, cbits := 0,
    wlen := 0, wbits := 0, dclass := .clean, dopf := false, dsyn := 0, dcpos := 0, ddata := 0 }

/-- The writes of an accepted BBEGIN of `len` bytes (spec/42_block_control.md R133). -/
def State.openBlock (len : Nat) (s : State) : State :=
  { s with
    wlen := s.clen, wbits := s.cbits, wptr := 0, ocnt := 0, cwrem := BitVec.ofNat 8 (len / 4), berr := false,
    lseen := false, xstate := .inblk }

/-- `CWREM <- CWREM - 1 ; LSEEN <- LSEEN OR L` (spec/41_accumulator.md R119). -/
def State.countCodeword (last : Bool) (s : State) : State :=
  { s with cwrem := s.cwrem - 1, lseen := s.lseen || last }

/-- `BERR <- 1` (spec/41_accumulator.md R119). -/
def State.markBerr (s : State) : State := { s with berr := true }

/-- `OCNT <- 0 ; XSTATE <- READY`: the block ends without output (spec/42_block_control.md R134, R135). -/
def State.dropBlock (s : State) : State := { s with ocnt := 0, xstate := .ready }

/-- The writes of a successful BCOMMIT (spec/42_block_control.md R134). -/
def State.commitBlock (s : State) : State :=
  { s with clen := s.wlen, cbits := s.wbits, ocnt := s.wptr, xstate := if s.lseen then .done else .ready }

/-! ### The fields that are not the block's registers -/

/-- The registers of spec/10_state.md R23 alone: the ports and the model's own fields at their reset values. -/
def State.block (s : State) : State :=
  { s with inflight := none, done := false, rdData := 0, host := [], draws := 0 }

/-- The state with the port `done` at `b`. -/
def State.withDone (b : Bool) (s : State) : State := { s with done := b }

/-- The state with `f` as the command in progress. -/
def State.withInflight (f : Option Inflight) (s : State) : State := { s with inflight := f }

/-- The state with `es` as the host's actions to come. -/
def State.withHost (es : List HostEvent) (s : State) : State := { s with host := es }

/-- The state with `w` on the port `rd_data`, one draw taken. -/
def State.withRead (w : Word) (s : State) : State := { s with rdData := w, draws := s.draws + 1 }

end Sys2Proof.Machine
end

