-- ==== Sys2Proof/Machine/Operands.lean ====
section
/-!
DEFINITION. What operands are made of: the codeword word and its positions (spec/20_memory.md R51, R52), and the leftover bit
sequence of a length and a bits register (spec/10_state.md R24). The fields of a command are cut out in Decode.lean.
-/

namespace Sys2Proof.Machine

/-- The codeword word `W = B0 ++ B1 ++ B2 ++ B3` of four bytes in arrival order (spec/20_memory.md R51). -/
def codewordOfBytes (b0 b1 b2 b3 : Byte) : Word := b0 ++ b1 ++ b2 ++ b3

/-- `c_k = W[32-k]`, the bit at position `k` of 1..32 (spec/20_memory.md R52). -/
def codeBit (w : Word) (k : Nat) : Bool := w.getLsbD (32 - k)

/-- The word with the bit at position `k` inverted; it is the private copy of spec/40_codeword_decoder.md R90, R96. -/
def flipPosition (w : Word) (k : Nat) : Word := w ^^^ (1#32 <<< (32 - k))

/-- The group parity positions (spec/00_scope.md R6). -/
def groupParities : List Nat := [1, 2, 4, 8, 16]

/-- `PARITY_POS`: the group parity positions and position 32 (spec/00_scope.md R6). -/
def parityPositions : List Nat := groupParities ++ [32]

/-- `DATAPOS`: the positions of 1..32 that are no parity position, ascending (spec/00_scope.md R6). -/
def dataPositions : List Nat := (List.range' 1 32).filter fun k => !parityPositions.contains k

/-- `BITS[LEN-1:0] ++ data` zero-extended to 33 bits: the leftover sequence before the decoded one, earliest bit most
significant (spec/10_state.md R24, spec/41_accumulator.md R111). -/
def combine (len : BitVec 3) (bits : BitVec 7) (data : Data) : BitVec 33 :=
  (bits.extractLsb' 0 len.toNat ++ data).setWidth 33

end Sys2Proof.Machine
end

