-- ==== Sys2Proof/Machine/Flags.lean ====
section
/-!
DEFINITION. The flag computations: group parities, syndrome, overall parity (spec/40_codeword_decoder.md R92 to R95), and the
decode status fields that are written together (spec/10_state.md R28).
-/

namespace Sys2Proof.Machine

/-- The exclusive-or over a list of bits. -/
def xorAll (bs : List Bool) : Bool := bs.foldr xor false

/-- The positions of 1..31 in group `p`: those with `k AND p ≠ 0` (spec/40_codeword_decoder.md R92). -/
def groupPositions (p : Nat) : List Nat := (List.range' 1 31).filter fun k => k &&& p != 0

/-- `g_p`, the exclusive-or of the bits of group `p`; the group fails when it is 1 (spec/40_codeword_decoder.md R92, R93). -/
def groupParity (w : Word) (p : Nat) : Bool := xorAll ((groupPositions p).map (codeBit w))

/-- `syn`, the sum of the failing parity positions' weights (spec/40_codeword_decoder.md R94). -/
def syndrome (w : Word) : BitVec 5 :=
  BitVec.ofNat 5 ((groupParities.map fun p => p * (groupParity w p).toNat).sum)

/-- `opf`, the exclusive-or of all 32 positions (spec/40_codeword_decoder.md R95). -/
def overallParity (w : Word) : Bool := xorAll ((List.range' 1 32).map (codeBit w))

/-- The result of `Decode` (spec/40_codeword_decoder.md R90). -/
structure Decoded where
  cls : DClass
  opf : Bool
  syn : BitVec 5
  cpos : BitVec 6
  data : Data
deriving DecidableEq, Repr

/-- `DCLASS <- cls ; DOPF <- opf ; DSYN <- syn ; DCPOS <- cpos ; DDATA <- data` (spec/10_state.md R28). -/
def State.withDecoded (d : Decoded) (s : State) : State :=
  { s with dclass := d.cls, dopf := d.opf, dsyn := d.syn, dcpos := d.cpos, ddata := d.data }

end Sys2Proof.Machine
end

