-- ==== Sys2Proof/Machine/Codeword.lean ====
section
/-!
DEFINITION. The codeword decoder: the pure function `Decode` and the command CWDEC (spec/40_codeword_decoder.md).
-/

namespace Sys2Proof.Machine

/-- `data`, the bits at the 26 data positions, the first (position 3) most significant (spec/40_codeword_decoder.md R97). -/
def extractData (w : Word) : Data :=
  BitVec.ofNat 26 (dataPositions.foldl (fun acc k => 2 * acc + (codeBit w k).toNat) 0)

/-- `Decode(W)`: correction, classification and data, in the order of spec/40_codeword_decoder.md R96; on UNCORR the data and
the corrected position are 0 (R98). -/
def decodeCodeword (w : Word) : Decoded :=
  let syn := syndrome w
  let opf := overallParity w
  if syn ≠ 0 then
    let c := flipPosition w syn.toNat
    if overallParity c = false then ⟨.corrected, opf, syn, syn.setWidth 6, extractData c⟩
    else ⟨.uncorr, opf, syn, 0, 0⟩
  else if opf = true then ⟨.p32, opf, syn, 32, extractData w⟩
  else ⟨.clean, opf, syn, 0, extractData w⟩

/-- CWDEC: decode one codeword for status only; always OK (spec/40_codeword_decoder.md R103). -/
def execCwdec (w : Word) (s : State) : Result := respond .ok (s.withDecoded (decodeCodeword w))

end Sys2Proof.Machine
end

