-- ==== Sys2Proof/Machine/Accumulator.lean ====
section
/-!
DEFINITION. The bit-carry accumulator: the pure function `Accumulate` and the command CWPUSH (spec/41_accumulator.md).
-/

namespace Sys2Proof.Machine

/-- The result of `Accumulate` (spec/41_accumulator.md R110). -/
structure Accumulated where
  bytes : List Byte
  adv : Nat
  len : BitVec 3
  bits : BitVec 7
deriving DecidableEq, Repr

/-- The whole bytes of a `T`-bit sequence held in `comb`, earliest first, the earliest of 8 bits in byte bit 7
(spec/41_accumulator.md R111, spec/20_memory.md R53). -/
def assembleBytes (T : Nat) (comb : BitVec 33) : List Byte :=
  (List.range (T / 8)).map fun j => comb.extractLsb' (T - 8 - 8 * j) 8

/-- `Accumulate(LEN, BITS, data, last)`: assembly (spec/41_accumulator.md R111), the new leftover of a non-final codeword
(R112), and the discard and zero scan of a final one (R113); the incoming leftover is prepended in both (R114). -/
def accumulate (len : BitVec 3) (bits : BitVec 7) (data : Data) (last : Bool) : Accumulated :=
  let T := len.toNat + 26
  let comb := combine len bits data
  let bytes := assembleBytes T comb
  if last then ⟨bytes, bytes.findIdx (· == 0), 0, 0⟩
  else ⟨bytes, T / 8, BitVec.ofNat 3 (T % 8), (comb.extractLsb' 0 (T % 8)).setWidth 7⟩

/-- `WPTR <- WPTR + adv ; WLEN <- LEN' ; WBITS <- BITS'` (spec/41_accumulator.md R119). -/
def State.advance (a : Accumulated) (s : State) : State :=
  { s with wptr := s.wptr + BitVec.ofNat 9 a.adv, wlen := a.len, wbits := a.bits }

/-- The accumulating end of CWPUSH: OBUF, WPTR and the working carry are written (spec/41_accumulator.md R119). -/
def pushData (data : Data) (last : Bool) (s : State) : Result :=
  let a := accumulate s.wlen s.wbits data last
  match obufStore s.wptr.toNat a.bytes s with
  | .next t => respond .ok (t.advance a)
  | .fault f => .fault f
  | .refused r => .refused r

/-- CWPUSH and CWPUSH.L: decode one codeword of the current block and accumulate its data (spec/41_accumulator.md R119); an
uncorrectable codeword and every later one of its block accumulate nothing (R120). -/
def execCwpush (last : Bool) (w : Word) (s : State) : Result :=
  if s.xstate ≠ .inblk ∨ s.cwrem = 0 then reject .seq s
  else if last = true ∧ s.cwrem ≠ 1 then reject .seq s
  else
    let d := decodeCodeword w
    let t := (s.countCodeword last).withDecoded d
    if d.cls = .uncorr then respond .uncorr t.markBerr
    else if t.berr = true then respond .ok t
    else pushData d.data last t

end Sys2Proof.Machine
end

