-- ==== Sys2Proof/Machine/Block.lean ====
section
/-!
DEFINITION. Block sequencing: NOP, XRST, BBEGIN, BCOMMIT and BABORT (spec/42_block_control.md).
-/

namespace Sys2Proof.Machine

/-- NOP: no state changes, RESP keeps its value (spec/42_block_control.md R131). -/
def execNop (s : State) : Result := .next s

/-- XRST: start a new transfer; OBUF is not written (spec/42_block_control.md R132). -/
def execXrst (s : State) : Result := respond .ok s.clearRegisters

/-- BBEGIN: open a block of `len` payload bytes (spec/42_block_control.md R133). -/
def execBbegin (len : BitVec 16) (s : State) : Result :=
  if s.xstate ≠ .ready then reject .seq s
  else if len.toNat % 4 ≠ 0 ∨ len.toNat > maxPayload then reject .malformed s
  else respond .ok (s.openBlock len.toNat)

/-- BCOMMIT: close the block and deliver its result (spec/42_block_control.md R134). -/
def execBcommit (s : State) : Result :=
  if s.xstate ≠ .inblk ∨ s.cwrem ≠ 0 then reject .seq s
  else if s.berr = true then respond .uncorr s.dropBlock
  else respond .ok s.commitBlock

/-- BABORT: abandon the open block without a result (spec/42_block_control.md R135). -/
def execBabort (s : State) : Result :=
  if s.xstate ≠ .inblk then reject .seq s
  else respond .ok s.dropBlock

end Sys2Proof.Machine
end

