-- ==== Sys2Proof/Machine/Dispatch.lean ====
section
/-!
DEFINITION. One arm per command (spec/30_encoding.md R73).
-/

namespace Sys2Proof.Machine

def exec (i : Instr) (s : State) : Host.Outcome State Fault Refusal :=
  match i with
  | .nop => Sys2Proof.Machine.execNop s
  | .xrst => Sys2Proof.Machine.execXrst s
  | .bbegin len => Sys2Proof.Machine.execBbegin len s
  | .cwpush last w => Sys2Proof.Machine.execCwpush last w s
  | .bcommit => Sys2Proof.Machine.execBcommit s
  | .babort => Sys2Proof.Machine.execBabort s
  | .cwdec w => Sys2Proof.Machine.execCwdec w s

end Sys2Proof.Machine
end

