-- ==== Sys2Proof/Config.lean ====
section
/-!
DEFINITION. What an implementation fixes and the free values of the spec, as constants without a body: nothing in Lean can
evaluate them, so a statement about one holds for every value.
-/

namespace Sys2Proof

/-- What a byte lane with no specified content reads as: draw number `draw`, lane 0 to 3 (spec/20_memory.md R58; log 4). -/
opaque Config.freeByte (draw lane : Nat) : Byte

/-- What a read during a command returns, at draw number `draw` (spec/20_memory.md R58; log 5). -/
opaque Config.freeWord (draw : Nat) : Word

/-- `CMD_LATENCY - 1` for a command accepted in a state of the block (spec/70_reset_and_hazards.md R186, spec/00_scope.md R7;
log 9). It is applied to `State.block`, the registers of spec/10_state.md R23 alone. -/
opaque Config.cmdLatencyExtra (c : Command) (block : Machine.State) : Nat

end Sys2Proof
end

