-- ==== Sys2Proof/Machine/ReadSpace.lean ====
section
/-!
DEFINITION. The host read space: 256 word addresses (spec/20_memory.md R55), the five status registers (spec/10_state.md R30 to
R34) and the packed output bytes (spec/20_memory.md R56, R58).
-/

namespace Sys2Proof.Machine

/-- The code of a response (spec/60_exceptions.md R160). -/
def Resp.code : Resp → BitVec 3
  | .ok => 0
  | .uncorr => 1
  | .malformed => 2
  | .seq => 3
  | .illegal => 4

/-- The encoding of a sequencing state (spec/10_state.md R27). -/
def XState.code : XState → BitVec 2
  | .ready => 0
  | .inblk => 1
  | .done => 2

/-- The encoding of a decode class (spec/40_codeword_decoder.md R90). -/
def DClass.code : DClass → BitVec 2
  | .clean => 0
  | .corrected => 1
  | .p32 => 2
  | .uncorr => 3

/-- `STATUS` (spec/10_state.md R30). -/
def statusWord (s : State) : Word :=
  0#25 ++ BitVec.ofBool s.lseen ++ BitVec.ofBool s.berr ++ s.xstate.code ++ s.resp.code

/-- `COUNT` (spec/10_state.md R31). -/
def countWord (s : State) : Word := 0#6 ++ s.cwrem ++ s.wptr ++ s.ocnt

/-- `DSTAT` (spec/10_state.md R32). -/
def dstatWord (s : State) : Word := 0#18 ++ s.dcpos ++ s.dsyn ++ BitVec.ofBool s.dopf ++ s.dclass.code

/-- `DDATA` (spec/10_state.md R33). -/
def ddataWord (s : State) : Word := 0#6 ++ s.ddata

/-- `CARRY` (spec/10_state.md R34). -/
def carryWord (s : State) : Word :=
  0#5 ++ s.wlen ++ 0#1 ++ s.wbits ++ 0#5 ++ s.clen ++ 0#1 ++ s.cbits

/-- The byte lane that holds `OBUF[i]`: the byte where `i < OCNT`, a free draw where not; a byte no command has written is a
draw too (spec/20_memory.md R58, spec/10_state.md R38; log 3, 4). -/
def obufLane (s : State) (i : Nat) : Byte :=
  if i < s.ocnt.toNat then (s.obuf.get i).getD (Config.freeByte s.draws (i % 4))
  else Config.freeByte s.draws (i % 4)

/-- `OBUFW[j]`, the lower-indexed byte more significant (spec/20_memory.md R56). -/
def obufWord (s : State) (j : Nat) : Word :=
  obufLane s (4 * j) ++ obufLane s (4 * j + 1) ++ obufLane s (4 * j + 2) ++ obufLane s (4 * j + 3)

/-- The word at read address `a` while no command is in progress (spec/20_memory.md R55); a reserved address reads 0
(R59). -/
def readWord (s : State) (a : Byte) : Word :=
  if a = 0x00 then statusWord s
  else if a = 0x01 then countWord s
  else if a = 0x02 then dstatWord s
  else if a = 0x03 then ddataWord s
  else if a = 0x04 then carryWord s
  else if 0x40 ≤ a.toNat ∧ a.toNat ≤ 0xA7 then obufWord s (a.toNat - 0x40)
  else 0

/-- A host read while no command is in progress: the word on `rd_data`, no register changed (spec/20_memory.md R57,
spec/70_reset_and_hazards.md R187). -/
def hostRead (a : Byte) (s : State) : State := s.withRead (readWord s a)

/-- A host read while a command is in progress: an unspecified word, whatever the address (spec/20_memory.md R58,
spec/70_reset_and_hazards.md R184; log 5). -/
def hostReadDuring (s : State) : State := s.withRead (Config.freeWord s.draws)

end Sys2Proof.Machine
end

