-- ==== Sys2Proof/Machine/Port.lean ====
section
/-!
DEFINITION. The block's ports at the transaction level: a command is decoded and performed as one atomic step
(spec/00_scope.md R3, spec/30_encoding.md R70), the host reads, `rst` resets.
-/

namespace Sys2Proof.Machine

/-- What a result is after its next state has been changed by `f`. -/
def Result.map (f : State → State) : Result → Result
  | .next s => .next (f s)
  | .fault e => .fault e
  | .refused r => .refused r

/-- Decode and perform one command; an illegal byte performs `raise Reject(ILLEGAL)`, decided before any state is read
(spec/30_encoding.md R74, R76, spec/60_exceptions.md R163). -/
def performCommand (c : Command) (s : State) : Result :=
  match decodeCmd c with
  | .ok i => exec i s
  | .error _ => reject .illegal s

/-- A command runs to completion: no command is in progress and `done` pulses, after a rejected one too
(spec/70_reset_and_hazards.md R186, spec/60_exceptions.md R162). -/
def completeCommand (c : Command) (s : State) : Result :=
  Result.map (State.withDone true) (performCommand c (s.withInflight none))

/-- The reset event: every register at its reset value, OBUF kept, a command in progress abandoned with no `done` pulse
(spec/70_reset_and_hazards.md R180). -/
def portReset (s : State) : State := ((s.clearRegisters).withInflight none).withDone false

/-- One host action; `done` is the completion pulse of this action alone (log 8). -/
def perform (e : HostEvent) (s : State) : Result :=
  match e with
  | .command cmd arg => completeCommand ⟨cmd, arg⟩ s
  | .read a => .next ((hostRead a s).withDone false)
  | .readDuring _ => .next ((hostReadDuring s).withDone false)
  | .reset => .next (portReset s)

/-- One transaction: a command in progress completes (log 11); else the host's next action is performed; else the block is
idle with all state retained (spec/60_exceptions.md R171). -/
def transact (s : State) : Result :=
  match s.inflight, s.host with
  | some f, _ => completeCommand f.command s
  | none, e :: es => perform e (s.withHost es)
  | none, [] => .next (s.withDone false)

/-- The state in which the host's very next action is command `c` (log 1). -/
def State.present (c : Command) (s : State) : State :=
  (s.withInflight none).withHost (.command c.cmd c.arg :: s.host)

end Sys2Proof.Machine
end

