-- ==== Sys2Proof/Machine/Step.lean ====
section
/-!
DEFINITION. One step of the machine is one transaction (spec/00_scope.md R7).
-/

namespace Sys2Proof.Machine

/-- One step: one transaction of the block with its host. -/
def step (s : State) : Host.Outcome State Fault Refusal := transact s

/-- The state whose very next step performs the command of these table-numbered bits (log 1, 14). -/
def State.withFetchWord (s : State) (nbits w : Nat) : State := s.present (Command.ofTable nbits w)

end Sys2Proof.Machine
end

