-- ==== Sys2Proof/Machine/Clock.lean ====
section
/-!
DEFINITION. The cycle-level handshake (spec/30_encoding.md R70, spec/70_reset_and_hazards.md R180, R183, R184, R186, R187): what
one rising edge of `clk` does. The transaction-level `step` is the model of the block; `tick` is the refinement of it that
spec/70_reset_and_hazards.md R186 records for an implementer (log 9, 10).
-/

namespace Sys2Proof.Machine

/-- The input ports as they are sampled at one rising edge of `clk` (spec/30_encoding.md R70). -/
structure Pins where
  rst : Bool
  cmdValid : Bool
  cmd : Byte
  arg : Word
  rdAddr : Byte
deriving DecidableEq, Repr

/-- The command on the port. -/
def Pins.command (p : Pins) : Command := ⟨p.cmd, p.arg⟩

/-- `cmd_ready`: 0 while `rst = 1` and from a command's acceptance to its completion (spec/70_reset_and_hazards.md R180,
R186). -/
def cmdReady (p : Pins) (s : State) : Bool := !p.rst && s.inflight.isNone

/-- A command is accepted at an edge with `cmd_valid = 1` and `cmd_ready = 1` (spec/30_encoding.md R70). -/
def accepts (p : Pins) (s : State) : Bool := p.cmdValid && cmdReady p s

/-- `CMD_LATENCY ≥ 1`, fixed for a command and a state of the block (spec/70_reset_and_hazards.md R186; log 9). -/
def cmdLatency (c : Command) (s : State) : Nat := 1 + Config.cmdLatencyExtra c s.block

/-- The registered read of one edge: the word at `rd_addr` of the state before the edge, or a draw when a command is in
progress or accepted, or the block reset, at this edge (spec/70_reset_and_hazards.md R184, R187; log 10). -/
def sampleRead (p : Pins) (s : State) : State :=
  if p.rst || s.inflight.isSome || accepts p s then hostReadDuring s else hostRead p.rdAddr s

/-- One rising edge of `clk`: `rst` resets; a command in progress comes one edge nearer and completes at the last; a
presented command is accepted when none is in progress (spec/70_reset_and_hazards.md R180, R183, R186). -/
def tick (p : Pins) (s : State) : Result :=
  let r := sampleRead p s
  if p.rst then .next (portReset r)
  else
    match s.inflight with
    | some f =>
      if f.left ≤ 1 then completeCommand f.command r
      else .next ((r.withInflight (some ⟨f.command, f.left - 1⟩)).withDone false)
    | none =>
      if p.cmdValid then .next ((r.withInflight (some ⟨p.command, cmdLatency p.command s⟩)).withDone false)
      else .next (r.withDone false)

/-- The edges of a list of pins, one after another. -/
def tickAll : List Pins → State → Result
  | [], s => .next s
  | p :: ps, s =>
    match tick p s with
    | .next t => tickAll ps t
    | .fault f => .fault f
    | .refused r => .refused r

end Sys2Proof.Machine
end

