-- ==== Sys2Proof/Machine/Protocol.lean ====
section
/-!
DEFINITION. The host's duties toward the block (spec/42_block_control.md R138 to R140) as the commands it issues and what it
makes of the block's answers. The host is outside the block: `step` uses none of this (log 19).
-/

namespace Sys2Proof.Machine

/-- The payload cut into consecutive 4-byte codewords (spec/20_memory.md R51, R60); a remainder of 1 to 3 bytes gives none,
since BBEGIN has rejected such a payload. -/
def payloadWords : List Byte → List Word
  | b0 :: b1 :: b2 :: b3 :: rest => codewordOfBytes b0 b1 b2 b3 :: payloadWords rest
  | _ => []

/-- One CWPUSH per codeword in order, the last one CWPUSH.L when the block is final (spec/42_block_control.md R138). -/
def pushCommands (final : Bool) : List Word → List Instr
  | [] => []
  | [w] => [.cwpush final w]
  | w :: ws => .cwpush false w :: pushCommands final ws

/-- The commands of one block of the protocol (spec/30_encoding.md R78): BBEGIN `len`, the pushes of `ws`, BCOMMIT. -/
def blockOf (len : BitVec 16) (final : Bool) (ws : List Word) : List Instr :=
  .bbegin len :: (pushCommands final ws ++ [.bcommit])

/-- The commands for a payload of at most 512 bytes and whole codewords: final when shorter than 512 (spec/42_block_control.md
R138). -/
def blockCommands (payload : List Byte) : List Instr :=
  blockOf (BitVec.ofNat 16 payload.length) (payload.length < maxPayload) (payloadWords payload)

/-- The commands of a whole transfer: XRST once, then each payload's block (spec/42_block_control.md R139). -/
def transferCommands (payloads : List (List Byte)) : List Instr :=
  .xrst :: payloads.flatMap blockCommands

/-- A sequence of commands, each performed to completion before the next (spec/10_state.md R20). -/
def execAll : List Instr → State → Result
  | [], s => .next s
  | i :: is, s =>
    match exec i s with
    | .next t => execAll is t
    | .fault f => .fault f
    | .refused r => .refused r

/-- What the host does about a block (spec/42_block_control.md R138). -/
inductive HostReply where
  /-- Take `OBUF[0 .. OCNT-1]` and send ACK. -/
  | ack
  /-- Write nothing, send NACK and wait for the retransmission. -/
  | nack
  /-- The transfer is fatal and is abandoned. -/
  | fatal
deriving DecidableEq, Repr

/-- The host's reply to the response a block ended with: OK from BCOMMIT is ACK, UNCORR from BCOMMIT is NACK, MALFORMED from
BBEGIN is fatal; the rule names no reply to the other responses (spec/42_block_control.md R138). -/
def hostReply : Resp → Option HostReply
  | .ok => some .ack
  | .uncorr => some .nack
  | .malformed => some .fatal
  | .seq => none
  | .illegal => none

/-- The committed output `OBUF[0 .. OCNT-1]`, byte by byte (spec/42_block_control.md R140). -/
def committedBytes (s : State) : List (Option Byte) := (List.range s.ocnt.toNat).map s.obuf.get

/-- The read addresses of the committed output, `0x40 .. 0x40 + ceil(OCNT/4) - 1` (spec/42_block_control.md R140). -/
def outputAddresses (s : State) : List Nat := List.range' 0x40 ((s.ocnt.toNat + 3) / 4)

end Sys2Proof.Machine
end

