-- ==== Sys2Proof/Safety.lean ====
section
/-!
DEFINITION. The terms in which claims are made: the invariant of the block (spec/10_state.md R25, R26, R32), bit sequences and
their bytes (spec/00_scope.md R8), runs of blocks, names for commands, and the error-free codeword of a data value.
-/

namespace Sys2Proof.Machine

/-! ### The invariant -/

/-- A leftover sequence of 0, 2, 4 or 6 bits with `BITS[6:LEN] = 0` (spec/10_state.md R24, R25). -/
def carryLegal (len : BitVec 3) (bits : BitVec 7) : Prop :=
  (len = 0 ∨ len = 2 ∨ len = 4 ∨ len = 6) ∧ bits.toNat < 2 ^ len.toNat

/-- The decode status fields agree as spec/10_state.md R32 and spec/40_codeword_decoder.md R96, R98 say. -/
def statusConsistent (s : State) : Prop :=
  match s.dclass with
  | .clean => s.dopf = false ∧ s.dsyn = 0 ∧ s.dcpos = 0
  | .corrected => s.dopf = true ∧ s.dsyn ≠ 0 ∧ s.dcpos.toNat = s.dsyn.toNat
  | .p32 => s.dopf = true ∧ s.dsyn = 0 ∧ s.dcpos = 32
  | .uncorr => s.dopf = false ∧ s.dsyn ≠ 0 ∧ s.dcpos = 0 ∧ s.ddata = 0

/-- What holds in every state the block can be in: the invariants of spec/10_state.md R25 and R26, the bound of
spec/41_accumulator.md R118 with the budget that makes it hold, the decode status, and OBUF's canonical form. -/
structure Inv (s : State) : Prop where
  committedCarry : carryLegal s.clen s.cbits
  workingCarry : carryLegal s.wlen s.wbits
  countBound : s.cwrem.toNat ≤ maxCodewords
  pointerBound : s.wptr.toNat ≤ obufBytes
  outputCount : s.ocnt = 0 ∨ s.ocnt = s.wptr
  noOutputInBlock : s.xstate = .inblk → s.ocnt = 0
  blockBudget : s.xstate = .inblk → 8 * s.wptr.toNat + s.wlen.toNat + 26 * s.cwrem.toNat ≤ 6 + 26 * maxCodewords
  finalLast : s.xstate = .inblk → s.lseen = true → s.cwrem = 0
  finalCarry : s.xstate = .inblk → s.lseen = true → s.berr = false → s.wlen = 0 ∧ s.wbits = 0
  doneCarry : s.xstate = .done → s.clen = 0 ∧ s.cbits = 0
  status : statusConsistent s
  memory : s.obuf.wf
  written : ∀ i < s.wptr.toNat, (s.obuf.get i).isSome = true

/-! ### Bit sequences -/

/-- The `n` low bits of `v` as a sequence, the most significant first (spec/00_scope.md R8, spec/10_state.md R24). -/
def bitSeq (n v : Nat) : List Bool := (List.range n).map fun i => v.testBit (n - 1 - i)

/-- The leftover sequence of a length and a bits register (spec/10_state.md R24). -/
def carrySeq (len : BitVec 3) (bits : BitVec 7) : List Bool := bitSeq len.toNat bits.toNat

/-- The decoded bit sequence in the packing of spec/40_codeword_decoder.md R97. -/
def dataSeq (d : Data) : List Bool := bitSeq 26 d.toNat

/-- The number whose bits are the sequence, the first most significant. -/
def seqNat (bs : List Bool) : Nat := bs.foldl (fun acc b => 2 * acc + b.toNat) 0

/-- "While ≥8 bits remain, emit one byte (most-significant-bit-first) and remove those 8 bits from the front"
(spec/41_accumulator.md R111): the bytes and what remains. -/
def packBytes : List Bool → List Byte × List Bool
  | b7 :: b6 :: b5 :: b4 :: b3 :: b2 :: b1 :: b0 :: rest =>
    let r := packBytes rest
    (BitVec.ofNat 8 (seqNat [b7, b6, b5, b4, b3, b2, b1, b0]) :: r.1, r.2)
  | rest => ([], rest)

/-- The parity of a word's population count (spec/40_codeword_decoder.md R92, R95). -/
def wordParity (w : Word) : Bool := (List.range 32).countP (fun i => w.getLsbD i) % 2 == 1

/-! ### Runs -/

/-- `Accumulate` over successive non-final data, each from the leftover of the one before (spec/41_accumulator.md R117). -/
def accumulateAll (len : BitVec 3) (bits : BitVec 7) : List Data → List Byte × BitVec 3 × BitVec 7
  | [] => ([], len, bits)
  | d :: ds =>
    let a := accumulate len bits d false
    let r := accumulateAll a.len a.bits ds
    (a.bytes ++ r.1, r.2)

/-- The block of the codewords `ws`, with the length that fits them (spec/30_encoding.md R78). -/
def wholeBlock (final : Bool) (ws : List Word) : List Instr := blockOf (BitVec.ofNat 16 (4 * ws.length)) final ws

/-- A block abandoned by BABORT after its first `k` pushes, or after all of them where there are no more
(spec/42_block_control.md R135, R136). -/
def abortedBlock (final : Bool) (ws : List Word) (k : Nat) : List Instr :=
  .bbegin (BitVec.ofNat 16 (4 * ws.length)) :: ((pushCommands final ws).take k ++ [.babort])

/-- The word decodes to data (any class but UNCORR). -/
def decodable (w : Word) : Prop := (decodeCodeword w).cls ≠ .uncorr

/-- The decoded bit sequences of the codewords, one after another. -/
def dataStream (ws : List Word) : List Bool := ws.flatMap fun w => dataSeq (decodeCodeword w).data

/-- An attempt at a block that delivers nothing (spec/42_block_control.md R137). -/
inductive Attempt where
  /-- Run to its BCOMMIT, with an uncorrectable codeword among `ws`. -/
  | committed (final : Bool) (ws : List Word)
  /-- Ended by BABORT after its first `k` pushes. -/
  | aborted (final : Bool) (ws : List Word) (k : Nat)
deriving DecidableEq, Repr

/-- The commands of an attempt. -/
def Attempt.commands : Attempt → List Instr
  | .committed final ws => wholeBlock final ws
  | .aborted final ws k => abortedBlock final ws k

/-- The attempt fits a block, and one that is run to its BCOMMIT has an uncorrectable codeword. -/
def Attempt.fails : Attempt → Prop
  | .committed _ ws => ws.length ≤ maxCodewords ∧ ∃ w ∈ ws, ¬ decodable w
  | .aborted _ ws _ => ws.length ≤ maxCodewords

/-- The response a failed attempt ends with (spec/42_block_control.md R134, R135). -/
def Attempt.response : Attempt → Resp
  | .committed _ _ => .uncorr
  | .aborted _ _ _ => .ok

/-- The state right after a block's BBEGIN and pushes and BCOMMIT have all run, for each block in turn, with the bytes the
host takes after each commit that answered OK (spec/42_block_control.md R138); none where a command stops. -/
def deliver : List (List Word) → State → Option (List (Option Byte) × State)
  | [], s => some ([], s)
  | ws :: rest, s =>
    match execAll (wholeBlock false ws) s with
    | .next t =>
      match deliver rest t with
      | some (bs, u) => some ((if t.resp = .ok then committedBytes t else []) ++ bs, u)
      | none => none
    | .fault _ => none
    | .refused _ => none

/-! ### Names of commands -/

/-- A command's name without its operands. -/
inductive Mnemonic where
  | nop
  | xrst
  | bbegin
  | cwpush
  | bcommit
  | babort
  | cwdec
deriving DecidableEq, Repr

/-- The name of a command (spec/30_encoding.md R73). -/
def mnemonicOf : Instr → Mnemonic
  | .nop => .nop
  | .xrst => .xrst
  | .bbegin _ => .bbegin
  | .cwpush _ _ => .cwpush
  | .bcommit => .bcommit
  | .babort => .babort
  | .cwdec _ => .cwdec

/-! ### The encoder that the decode rules imply -/

/-- The word with `d` at the data positions and 0 at the parity positions (spec/95_test_vectors.md; log 18). -/
def placeData (d : Data) : Word :=
  (List.range 26).foldl (fun w i => if d.getLsbD (25 - i) then flipPosition w (dataPositions.getD i 0) else w) 0

/-- The error-free codeword of `d`: "data at the data positions, then each group parity bit set so that its group's XOR is 0,
then position 32 set so that the overall XOR is 0" (spec/95_test_vectors.md; log 18). -/
def encodeData (d : Data) : Word :=
  let w := groupParities.foldl (fun w p => if groupParity w p then flipPosition w p else w) (placeData d)
  if overallParity w then flipPosition w 32 else w

end Sys2Proof.Machine
end

