-- ==== Sys2Proof/Certificates/Slice0/Obligations.lean ====
section
/-!
DEFINITION. The statements about the block, from the numbered rules of spec/. Nothing is proved here.
-/

open Sys2Proof Sys2Proof.Machine

/-! ### Encoding and the port -/

/-- spec/30_encoding.md R71 to R73, R76: every command survives encoding, and what is decoded carries every bit of the raw
command that its row does not ignore. -/
def Obligations.DecodeEncodeRoundTrip : Prop :=
  (∀ i, decodeCmd (encode i) = .ok i) ∧
  ∀ c i, decodeCmd c = .ok i →
    (encode i).cmd = c.cmd ∧
    match i with
    | .cwpush _ _ | .cwdec _ => (encode i).arg = c.arg
    | .bbegin _ => (encode i).arg = c.arg &&& 0x0000FFFF
    | .nop | .xrst | .bcommit | .babort => (encode i).arg = 0

/-- spec/30_encoding.md R73: the opcode map by match and mask. -/
def Obligations.OpcodeMapSelects : Prop :=
  ∀ c : Command,
    (c.cmd &&& 0xFF = 0x00 ↔ decodeCmd c = .ok .nop) ∧
    (c.cmd &&& 0xFF = 0x01 ↔ decodeCmd c = .ok .xrst) ∧
    (c.cmd &&& 0xFF = 0x02 ↔ decodeCmd c = .ok (.bbegin (c.arg.setWidth 16))) ∧
    (c.cmd &&& 0xEF = 0x03 ↔ decodeCmd c = .ok (.cwpush (c.cmd.getLsbD 4) c.arg)) ∧
    (c.cmd &&& 0xFF = 0x04 ↔ decodeCmd c = .ok .bcommit) ∧
    (c.cmd &&& 0xFF = 0x05 ↔ decodeCmd c = .ok .babort) ∧
    (c.cmd &&& 0xFF = 0x06 ↔ decodeCmd c = .ok (.cwdec c.arg))

/-- spec/30_encoding.md R74: which bytes are illegal, how many, and what an illegal command does. -/
def Obligations.IllegalByteRejected : Prop :=
  (∀ c : Command,
    ((∃ e, decodeCmd c = .error e) ↔ (c.rsv ≠ 0 ∨ 7 ≤ c.op.toNat ∨ (c.flagL = true ∧ c.op ≠ 3))) ∧
    ((∃ e, decodeCmd c = .error e) ↔ c.wellFormed = false)) ∧
  ((List.range 256).countP fun b => !(Command.wellFormed ⟨BitVec.ofNat 8 b, 0⟩)) = 248 ∧
  ∀ (s : State) (cmd : Byte) (arg : Word) (rest : List HostEvent), s.inflight = none →
    s.host = .command cmd arg :: rest → Command.wellFormed ⟨cmd, arg⟩ = false →
    step s = .next { s with resp := .illegal, host := rest, done := true }

/-- Command words of spec/95_test_vectors.md section 5, written out from spec/30_encoding.md R73. -/
def Obligations.ListedWordsDecode : Prop :=
  decodeCmd ⟨0x00, 0x00000000⟩ = .ok .nop ∧
  decodeCmd ⟨0x01, 0x00000000⟩ = .ok .xrst ∧
  decodeCmd ⟨0x02, 0x00010004⟩ = .ok (.bbegin 4) ∧
  decodeCmd ⟨0x03, 0x4B15121B⟩ = .ok (.cwpush false 0x4B15121B) ∧
  decodeCmd ⟨0x13, 0xD391B8C0⟩ = .ok (.cwpush true 0xD391B8C0) ∧
  decodeCmd ⟨0x04, 0x00000000⟩ = .ok .bcommit ∧
  decodeCmd ⟨0x05, 0x00000000⟩ = .ok .babort ∧
  decodeCmd ⟨0x06, 0xA9100000⟩ = .ok (.cwdec 0xA9100000) ∧
  decodeCmd ⟨0x07, 0x00000000⟩ = .error .opcode ∧
  decodeCmd ⟨0x14, 0x00000000⟩ = .error .misplacedFlag ∧
  decodeCmd ⟨0x23, 0x00000000⟩ = .error .reservedBits

/-- spec/30_encoding.md R77: a listing line inside its operand range stands for the command it names. -/
def Obligations.ListingAssembles : Prop :=
  ∀ l : Listing, l.wellFormed = true →
    match l, assemble l with
    | .nop, .command c a => decodeCmd ⟨c, a⟩ = .ok .nop
    | .xrst, .command c a => decodeCmd ⟨c, a⟩ = .ok .xrst
    | .bbegin n, .command c a => ∃ len, decodeCmd ⟨c, a⟩ = .ok (.bbegin len) ∧ len.toNat = n
    | .cwpush n, .command c a => ∃ w, decodeCmd ⟨c, a⟩ = .ok (.cwpush false w) ∧ w.toNat = n
    | .cwpushL n, .command c a => ∃ w, decodeCmd ⟨c, a⟩ = .ok (.cwpush true w) ∧ w.toNat = n
    | .bcommit, .command c a => decodeCmd ⟨c, a⟩ = .ok .bcommit
    | .babort, .command c a => decodeCmd ⟨c, a⟩ = .ok .babort
    | .cwdec n, .command c a => ∃ w, decodeCmd ⟨c, a⟩ = .ok (.cwdec w) ∧ w.toNat = n
    | .rd n, .read a => a.toNat = n
    | _, _ => False

/-- The step runs the decoded command: when the host's next action presents a command whose byte decodes to `i`, the step is
`exec i` on the state with that action taken, and pulses `done` after it. -/
def Obligations.StepRunsDecodedCommand : Prop :=
  ∀ (s : State) (cmd : Byte) (arg : Word) (rest : List HostEvent) (i : Instr), s.inflight = none →
    s.host = .command cmd arg :: rest → decodeCmd ⟨cmd, arg⟩ = .ok i →
    step s =
      match exec i { s with host := rest } with
      | .next t => .next { t with done := true }
      | .fault f => .fault f
      | .refused r => .refused r

/-- spec/70_reset_and_hazards.md R180 and spec/10_state.md R38: the reset event at a clock edge, and the first edge after it. -/
def Obligations.ResetEvent : Prop :=
  ∀ (p : Pins) (s : State), p.rst = true →
    cmdReady p s = false ∧
    ∃ t, tick p s = .next t ∧
      (t.resp = .ok ∧ t.xstate = .ready ∧ t.berr = false ∧ t.lseen = false ∧ t.cwrem = 0 ∧ t.wptr = 0 ∧ t.ocnt = 0 ∧
        t.clen = 0 ∧ t.cbits = 0 ∧ t.wlen = 0 ∧ t.wbits = 0 ∧ t.dclass = .clean ∧ t.dopf = false ∧ t.dsyn = 0 ∧
        t.dcpos = 0 ∧ t.ddata = 0) ∧
      t.inflight = none ∧ t.done = false ∧ t.obuf = s.obuf ∧
      (∀ j, j < 104 → ∃ b0 b1 b2 b3 : Byte, readWord t (BitVec.ofNat 8 (0x40 + j)) = b0 ++ b1 ++ b2 ++ b3 ∧
        b0 = Config.freeByte t.draws 0 ∧ b1 = Config.freeByte t.draws 1 ∧
        b2 = Config.freeByte t.draws 2 ∧ b3 = Config.freeByte t.draws 3) ∧
      ∀ q : Pins, q.rst = false → cmdReady q t = true

/-- spec/70_reset_and_hazards.md R181: XRST as a command and the reset event leave the same registers from every state;
XRST pulses `done`, reset does not. -/
def Obligations.XrstMatchesReset : Prop :=
  ∀ (s t u : State), s.inflight = none → step (s.present (encode .xrst)) = .next t →
    perform .reset s = .next u →
    t.block = u.block ∧ t.xstate = .ready ∧ t.resp = .ok ∧ t.done = true ∧ u.done = false

/-! ### Commands, each with its encoding, its result, its frame and where it completes -/

/-- spec/42_block_control.md R131. -/
def Obligations.NopChangesNothing : Prop :=
  (∀ arg, decodeCmd ⟨0x00, arg⟩ = .ok .nop) ∧
  ∀ s : State, exec .nop s = .next s ∧
    ∀ t, s.inflight = none → step (s.present (encode .nop)) = .next t →
      t.resp = s.resp ∧ t.block = s.block ∧ statusWord t = statusWord s

/-- spec/42_block_control.md R132: from every state; OBUF, the ports and what the host has still to do are unchanged. -/
def Obligations.XrstResult : Prop :=
  (∀ arg, decodeCmd ⟨0x01, arg⟩ = .ok .xrst) ∧
  ∀ s : State, ∃ t, exec .xrst s = .next t ∧
    t.resp = .ok ∧ t.xstate = .ready ∧ t.berr = false ∧ t.lseen = false ∧ t.cwrem = 0 ∧ t.wptr = 0 ∧ t.ocnt = 0 ∧
    t.clen = 0 ∧ t.cbits = 0 ∧ t.wlen = 0 ∧ t.wbits = 0 ∧ t.dclass = .clean ∧ t.dopf = false ∧ t.dsyn = 0 ∧
    t.dcpos = 0 ∧ t.ddata = 0 ∧
    statusWord t = 0 ∧ countWord t = 0 ∧ carryWord t = 0 ∧ dstatWord t = 0 ∧ ddataWord t = 0 ∧
    (∀ a, t.obuf.get a = s.obuf.get a) ∧
    t.inflight = s.inflight ∧ t.done = s.done ∧ t.rdData = s.rdData ∧ t.host = s.host ∧ t.draws = s.draws

/-- spec/42_block_control.md R133, every form: rejected out of READY, malformed, opened. -/
def Obligations.BbeginResult : Prop :=
  (∀ arg, decodeCmd ⟨0x02, arg⟩ = .ok (.bbegin (arg.setWidth 16))) ∧
  ∀ (len : BitVec 16) (s : State),
    (s.xstate ≠ .ready → exec (.bbegin len) s = .next { s with resp := .seq }) ∧
    (s.xstate = .ready → (len.toNat % 4 ≠ 0 ∨ len.toNat > 512) →
      exec (.bbegin len) s = .next { s with resp := .malformed }) ∧
    (s.xstate = .ready → len.toNat % 4 = 0 → len.toNat ≤ 512 →
      ∃ t, exec (.bbegin len) s = .next t ∧ 4 * t.cwrem.toNat = len.toNat ∧
        t = { s with wlen := s.clen, wbits := s.cbits, wptr := 0, ocnt := 0, cwrem := t.cwrem, berr := false,
                     lseen := false, xstate := .inblk, resp := .ok })

/-- spec/41_accumulator.md R119, every form; an accumulating push is stated where its bytes lie inside OBUF, which R118 says
is always so in a run. -/
def Obligations.CwpushResult : Prop :=
  (∀ w, decodeCmd ⟨0x03, w⟩ = .ok (.cwpush false w) ∧ decodeCmd ⟨0x13, w⟩ = .ok (.cwpush true w)) ∧
  ∀ (last : Bool) (w : Word) (s : State),
    let d := decodeCodeword w
    let a := accumulate s.wlen s.wbits d.data last
    (s.xstate ≠ .inblk ∨ s.cwrem = 0 → exec (.cwpush last w) s = .next { s with resp := .seq }) ∧
    (last = true → s.cwrem ≠ 1 → exec (.cwpush last w) s = .next { s with resp := .seq }) ∧
    (s.xstate = .inblk → s.cwrem ≠ 0 → (last = true → s.cwrem = 1) →
      (d.cls = .uncorr → ∃ t, exec (.cwpush last w) s = .next t ∧ t.cwrem.toNat + 1 = s.cwrem.toNat ∧
        t = { s with cwrem := t.cwrem, lseen := s.lseen || last, dclass := d.cls, dopf := d.opf, dsyn := d.syn,
                     dcpos := d.cpos, ddata := d.data, berr := true, resp := .uncorr }) ∧
      (d.cls ≠ .uncorr → s.berr = true → ∃ t, exec (.cwpush last w) s = .next t ∧ t.cwrem.toNat + 1 = s.cwrem.toNat ∧
        t = { s with cwrem := t.cwrem, lseen := s.lseen || last, dclass := d.cls, dopf := d.opf, dsyn := d.syn,
                     dcpos := d.cpos, ddata := d.data, resp := .ok }) ∧
      (d.cls ≠ .uncorr → s.berr = false → s.wptr.toNat + a.bytes.length ≤ 416 →
        ∃ t, exec (.cwpush last w) s = .next t ∧ t.cwrem.toNat + 1 = s.cwrem.toNat ∧
          t.wptr.toNat = s.wptr.toNat + a.adv ∧
          t = { s with cwrem := t.cwrem, lseen := s.lseen || last, dclass := d.cls, dopf := d.opf, dsyn := d.syn,
                       dcpos := d.cpos, ddata := d.data, wptr := t.wptr, wlen := a.len, wbits := a.bits,
                       obuf := t.obuf, resp := .ok } ∧
          (∀ j, j < a.bytes.length → t.obuf.get (s.wptr.toNat + j) = a.bytes[j]?) ∧
          ∀ i, (i < s.wptr.toNat ∨ s.wptr.toNat + a.bytes.length ≤ i) → t.obuf.get i = s.obuf.get i))

/-- Where an accumulating push stops: a byte index past 415, which no run reaches (spec/41_accumulator.md R118); that it stops
there, and does not wrap, is the model's choice (log 6). -/
def Obligations.CwpushPastBufferStops : Prop :=
  ∀ (last : Bool) (w : Word) (s : State), s.xstate = .inblk → s.cwrem ≠ 0 → (last = true → s.cwrem = 1) →
    s.berr = false → decodable w →
    416 < s.wptr.toNat + (accumulate s.wlen s.wbits (decodeCodeword w).data last).bytes.length →
    ∃ i, 416 ≤ i ∧ exec (.cwpush last w) s = .fault (.obufRange i)

/-- spec/41_accumulator.md R120: once BERR is set, the rest of the block decodes and counts but accumulates nothing, and
BCOMMIT answers UNCORR with the committed carry kept. -/
def Obligations.AbandonedBlockAccumulatesNothing : Prop :=
  ∀ (final : Bool) (ws : List Word) (s : State), s.xstate = .inblk → s.berr = true → s.cwrem.toNat = ws.length →
    (∃ t, execAll (pushCommands final ws) s = .next t ∧
      t.berr = true ∧ t.cwrem = 0 ∧ t.wptr = s.wptr ∧ t.wlen = s.wlen ∧ t.wbits = s.wbits ∧ t.obuf = s.obuf ∧
      (∀ w, ws.getLast? = some w →
        t.dclass = (decodeCodeword w).cls ∧ t.dopf = (decodeCodeword w).opf ∧ t.dsyn = (decodeCodeword w).syn ∧
        t.dcpos = (decodeCodeword w).cpos ∧ t.ddata = (decodeCodeword w).data ∧
        t.resp = if (decodeCodeword w).cls = .uncorr then .uncorr else .ok)) ∧
    ∃ u, execAll (pushCommands final ws ++ [.bcommit]) s = .next u ∧
      u.resp = .uncorr ∧ u.xstate = .ready ∧ u.ocnt = 0 ∧ u.clen = s.clen ∧ u.cbits = s.cbits ∧ u.obuf = s.obuf

/-- spec/42_block_control.md R134, every form. -/
def Obligations.BcommitResult : Prop :=
  (∀ arg, decodeCmd ⟨0x04, arg⟩ = .ok .bcommit) ∧
  ∀ s : State,
    (s.xstate ≠ .inblk ∨ s.cwrem ≠ 0 → exec .bcommit s = .next { s with resp := .seq }) ∧
    (s.xstate = .inblk → s.cwrem = 0 → s.berr = true →
      exec .bcommit s = .next { s with ocnt := 0, xstate := .ready, resp := .uncorr }) ∧
    (s.xstate = .inblk → s.cwrem = 0 → s.berr = false → s.lseen = true →
      exec .bcommit s = .next { s with clen := s.wlen, cbits := s.wbits, ocnt := s.wptr, xstate := .done, resp := .ok }) ∧
    (s.xstate = .inblk → s.cwrem = 0 → s.berr = false → s.lseen = false →
      exec .bcommit s = .next { s with clen := s.wlen, cbits := s.wbits, ocnt := s.wptr, xstate := .ready, resp := .ok })

/-- spec/42_block_control.md R135, every form. -/
def Obligations.BabortResult : Prop :=
  (∀ arg, decodeCmd ⟨0x05, arg⟩ = .ok .babort) ∧
  ∀ s : State,
    (s.xstate ≠ .inblk → exec .babort s = .next { s with resp := .seq }) ∧
    (s.xstate = .inblk → exec .babort s = .next { s with ocnt := 0, xstate := .ready, resp := .ok })

/-- spec/40_codeword_decoder.md R103: legal in every state, always OK, the block's outcome unchanged. -/
def Obligations.CwdecResult : Prop :=
  (∀ w, decodeCmd ⟨0x06, w⟩ = .ok (.cwdec w)) ∧
  ∀ (w : Word) (s : State),
    let d := decodeCodeword w
    exec (.cwdec w) s =
      .next { s with dclass := d.cls, dopf := d.opf, dsyn := d.syn, dcpos := d.cpos, ddata := d.data, resp := .ok }

/-! ### Whole-machine rules of the commands -/

/-- spec/42_block_control.md R130: the transitions of XSTATE for every command and state, an illegal byte included. -/
def Obligations.SequencingTable : Prop :=
  (∀ (i : Instr) (s t : State), exec i s = .next t →
    t.xstate =
      match i, s.xstate with
      | .xrst, _ => .ready
      | .bbegin len, .ready => if len.toNat % 4 = 0 ∧ len.toNat ≤ 512 then .inblk else .ready
      | .bcommit, .inblk =>
        if s.cwrem ≠ 0 then .inblk else if s.berr = false ∧ s.lseen = true then .done else .ready
      | .babort, .inblk => .ready
      | _, x => x) ∧
  (∀ (i : Instr) (s t : State), exec i s = .next t →
    (mnemonicOf i = .bbegin ∧ s.xstate ≠ .ready ∨
      mnemonicOf i ∈ [.cwpush, .bcommit, .babort] ∧ s.xstate ≠ .inblk ∨
      mnemonicOf i = .bcommit ∧ s.cwrem ≠ 0) → t = { s with resp := .seq }) ∧
  ∀ (c : Command) (s t : State), c.wellFormed = false → performCommand c s = .next t → t = { s with resp := .illegal }

/-- spec/60_exceptions.md R162: a command that ends with MALFORMED, SEQ or ILLEGAL has written RESP and nothing else; it
completes like any other, with `done` and ready for the next. -/
def Obligations.RejectWritesOnlyResp : Prop :=
  (∀ (code : Resp) (s : State), reject code s = .next { s with resp := code }) ∧
  (∀ (c : Command) (s t : State), performCommand c s = .next t → t.resp ∈ [.malformed, .seq, .illegal] →
    t = { s with resp := t.resp }) ∧
  ∀ (c : Command) (s t : State), step (s.present c) = .next t → t.done = true ∧ t.inflight = none

/-- spec/60_exceptions.md R160, R163: the one response of every command, in the order of precedence. -/
def Obligations.ResponsePrecedence : Prop :=
  ∀ (c : Command) (s t : State), performCommand c s = .next t →
    t.resp =
      match decodeCmd c with
      | .error _ => .illegal
      | .ok .nop => s.resp
      | .ok .xrst => .ok
      | .ok (.cwdec _) => .ok
      | .ok .babort => if s.xstate = .inblk then .ok else .seq
      | .ok (.bbegin len) =>
        if s.xstate ≠ .ready then .seq else if len.toNat % 4 = 0 ∧ len.toNat ≤ 512 then .ok else .malformed
      | .ok (.cwpush last w) =>
        if s.xstate ≠ .inblk ∨ s.cwrem = 0 ∨ (last = true ∧ s.cwrem ≠ 1) then .seq
        else if (decodeCodeword w).cls = .uncorr then .uncorr else .ok
      | .ok .bcommit =>
        if s.xstate ≠ .inblk ∨ s.cwrem ≠ 0 then .seq else if s.berr = true then .uncorr else .ok

/-- spec/10_state.md R29, R36: RESP is read by no command and replaced by every command but NOP. -/
def Obligations.RespIsReplacedAndNeverRead : Prop :=
  ∀ (i : Instr) (s : State) (r : Resp),
    (i ≠ .nop → exec i { s with resp := r } = exec i s) ∧ exec .nop { s with resp := r } = .next { s with resp := r }

/-- spec/10_state.md R23, column "written by", and R35: no command writes a register that names other commands as its writers;
none touches a port or what the host has still to do. -/
def Obligations.RegisterWriters : Prop :=
  ∀ (i : Instr) (s t : State), exec i s = .next t →
    let m := mnemonicOf i
    (m = .nop → t.resp = s.resp) ∧
    (m ∉ [.xrst, .bbegin, .bcommit, .babort] → t.xstate = s.xstate) ∧
    (m ∉ [.xrst, .bbegin, .cwpush] → t.berr = s.berr ∧ t.lseen = s.lseen ∧ t.cwrem = s.cwrem ∧ t.wptr = s.wptr ∧
      t.wlen = s.wlen ∧ t.wbits = s.wbits) ∧
    (m ∉ [.xrst, .bbegin, .bcommit, .babort] → t.ocnt = s.ocnt) ∧
    (m ∉ [.xrst, .bcommit] → t.clen = s.clen ∧ t.cbits = s.cbits) ∧
    (m ∉ [.xrst, .cwpush, .cwdec] → t.dclass = s.dclass ∧ t.dopf = s.dopf ∧ t.dsyn = s.dsyn ∧ t.dcpos = s.dcpos ∧
      t.ddata = s.ddata) ∧
    (m ≠ .cwpush → ∀ a, t.obuf.get a = s.obuf.get a) ∧
    t.inflight = s.inflight ∧ t.done = s.done ∧ t.rdData = s.rdData ∧ t.host = s.host ∧ t.draws = s.draws

/-- spec/41_accumulator.md R119 (frame of CWPUSH): the bytes outside those it assembles at WPTR are unchanged; where it is
rejected, uncorrectable or in an abandoned block, every byte is. -/
def Obligations.CwpushMemoryFrame : Prop :=
  ∀ (last : Bool) (w : Word) (s t : State), exec (.cwpush last w) s = .next t →
    (∀ i, (i < s.wptr.toNat ∨
        s.wptr.toNat + (accumulate s.wlen s.wbits (decodeCodeword w).data last).bytes.length ≤ i) →
      t.obuf.get i = s.obuf.get i) ∧
    (t.resp ≠ .ok ∨ s.berr = true → ∀ i, t.obuf.get i = s.obuf.get i)

/-- spec/60_exceptions.md R164: BERR, once set, stays set until BBEGIN or XRST; the block then commits UNCORR. -/
def Obligations.BerrIsSticky : Prop :=
  ∀ (i : Instr) (s t : State), exec i s = .next t → s.berr = true → mnemonicOf i ∉ [.xrst, .bbegin] →
    t.berr = true ∧ (i = .bcommit → s.xstate = .inblk → s.cwrem = 0 → t.resp = .uncorr ∧ t.ocnt = 0 ∧
      t.clen = s.clen ∧ t.cbits = s.cbits)

/-- spec/42_block_control.md R132: XRST is the only way out of DONE. -/
def Obligations.DoneIsTerminal : Prop :=
  ∀ (i : Instr) (s t : State), exec i s = .next t → s.xstate = .done → i ≠ .xrst →
    t.xstate = .done ∧ t.clen = s.clen ∧ t.cbits = s.cbits ∧ t.ocnt = s.ocnt ∧
    ∀ a, t.obuf.get a = s.obuf.get a

/-! ### The codeword decoder -/

/-- spec/20_memory.md R51, R52: where the four wire bytes and the positions lie in the word. -/
def Obligations.PositionsInWord : Prop :=
  (∀ (b0 b1 b2 b3 : Byte) (k : Nat), k < 8 →
    codeBit (codewordOfBytes b0 b1 b2 b3) (1 + k) = b0.getLsbD (7 - k) ∧
    codeBit (codewordOfBytes b0 b1 b2 b3) (9 + k) = b1.getLsbD (7 - k) ∧
    codeBit (codewordOfBytes b0 b1 b2 b3) (17 + k) = b2.getLsbD (7 - k) ∧
    codeBit (codewordOfBytes b0 b1 b2 b3) (25 + k) = b3.getLsbD (7 - k)) ∧
  ∀ k, 1 ≤ k → k ≤ 32 →
    (k ∈ parityPositions ↔ codeBit 0xD1010001 k = true) ∧ (k ∈ dataPositions ↔ codeBit 0x2EFEFFFE k = true)

/-- spec/40_codeword_decoder.md R92, R95: the group parities by windows and by masks, the overall parity of the word. -/
def Obligations.ParityMasks : Prop :=
  (∀ w : Word,
    groupParity w 1 = wordParity (w &&& 0xAAAAAAAA) ∧ groupParity w 2 = wordParity (w &&& 0x66666666) ∧
    groupParity w 4 = wordParity (w &&& 0x1E1E1E1E) ∧ groupParity w 8 = wordParity (w &&& 0x01FE01FE) ∧
    groupParity w 16 = wordParity (w &&& 0x0001FFFE) ∧ overallParity w = wordParity w) ∧
  ∀ p ∈ groupParities, p ∈ groupPositions p ∧ 32 ∉ groupPositions p ∧
    groupPositions p = (List.range' 1 31).filter fun k => p ≤ k % (2 * p)

/-- spec/40_codeword_decoder.md R94: the syndrome is the sum of the failing weights, and the exclusive-or of the positions of
the set bits among 1..31. -/
def Obligations.SyndromeIsXorOfPositions : Prop :=
  ∀ w : Word,
    (syndrome w).toNat = (groupParity w 1).toNat + 2 * (groupParity w 2).toNat + 4 * (groupParity w 4).toNat +
      8 * (groupParity w 8).toNat + 16 * (groupParity w 16).toNat ∧
    (syndrome w).toNat = ((List.range' 1 31).filter (codeBit w)).foldr (· ^^^ ·) 0

/-- spec/40_codeword_decoder.md R96, R98: the class is a function of two bits; the corrected position and the data of each. -/
def Obligations.ClassTable : Prop :=
  ∀ w : Word,
    let d := decodeCodeword w
    d.syn = syndrome w ∧ d.opf = overallParity w ∧
    (syndrome w = 0 → overallParity w = false → d.cls = .clean ∧ d.cpos = 0 ∧ d.data = extractData w) ∧
    (syndrome w = 0 → overallParity w = true → d.cls = .p32 ∧ d.cpos = 32 ∧ d.data = extractData w) ∧
    (syndrome w ≠ 0 → overallParity w = true →
      d.cls = .corrected ∧ d.cpos.toNat = (syndrome w).toNat ∧ d.data = extractData (flipPosition w (syndrome w).toNat)) ∧
    (syndrome w ≠ 0 → overallParity w = false → d.cls = .uncorr ∧ d.cpos = 0 ∧ d.data = 0)

/-- spec/40_codeword_decoder.md R97: the data in word terms, and bit by bit. -/
def Obligations.DataInWordTerms : Prop :=
  ∀ w : Word,
    extractData w = w.extractLsb' 29 1 ++ w.extractLsb' 25 3 ++ w.extractLsb' 17 7 ++ w.extractLsb' 1 15 ∧
    dataSeq (extractData w) = dataPositions.map (codeBit w)

/-- spec/40_codeword_decoder.md R99. -/
def Obligations.DecodeCornerCases : Prop :=
  (∀ w : Word, syndrome (flipPosition w 32) = syndrome w ∧ overallParity (flipPosition w 32) = !overallParity w) ∧
  (∀ w : Word, (syndrome w).toNat ∈ groupParities → overallParity w = true →
    (decodeCodeword w).cls = .corrected ∧ (decodeCodeword w).data = extractData w) ∧
  decodeCodeword 0x00000000 = ⟨.clean, false, 0, 0, 0⟩ ∧
  decodeCodeword 0xFFFFFFFF = ⟨.clean, false, 0, 0, 0x3FFFFFF⟩

/-- spec/40_codeword_decoder.md R101, for every word, not only sampled ones. -/
def Obligations.SingleErrorCorrected : Prop :=
  ∀ w : Word, (decodeCodeword w).cls = .clean → ∀ k, 1 ≤ k → k ≤ 32 →
    let d := decodeCodeword (flipPosition w k)
    d.data = (decodeCodeword w).data ∧
    (k ≤ 31 → d.cls = .corrected ∧ d.cpos.toNat = k) ∧
    (k = 32 → d.cls = .p32 ∧ d.cpos.toNat = 32)

/-- spec/40_codeword_decoder.md R102, for every word and every pair of positions. -/
def Obligations.DoubleErrorDetected : Prop :=
  ∀ w : Word, (decodeCodeword w).cls = .clean → ∀ a b, 1 ≤ a → a ≤ 32 → 1 ≤ b → b ≤ 32 → a ≠ b →
    (decodeCodeword (flipPosition (flipPosition w a) b)).cls = .uncorr

/-- spec/40_codeword_decoder.md R100: three and four errors get the class R96 computes, and it can be wrong. -/
def Obligations.DesignLimit : Prop :=
  ∀ w : Word, (decodeCodeword w).cls = .clean →
    (let d := decodeCodeword (flipPosition (flipPosition (flipPosition w 3) 5) 7)
     d.cls = .corrected ∧ d.cpos = 1 ∧ d.data ≠ (decodeCodeword w).data) ∧
    (let d := decodeCodeword (flipPosition (flipPosition (flipPosition w 3) 5) 6)
     d.cls = .p32 ∧ d.data ≠ (decodeCodeword w).data) ∧
    (let d := decodeCodeword (flipPosition (flipPosition (flipPosition (flipPosition w 3) 5) 6) 32)
     d.cls = .clean ∧ d.data ≠ (decodeCodeword w).data)

/-- Every data value has an error-free codeword, the one the decode rules imply (spec/95_test_vectors.md; log 18), and it
decodes to that value. -/
def Obligations.EncodedDataDecodes : Prop :=
  ∀ d : Data, decodeCodeword (encodeData d) = ⟨.clean, false, 0, 0, d⟩

/-! ### The accumulator -/

/-- spec/41_accumulator.md R111 to R114: the assembled bytes are those of the byte loop over leftover and data; what remains
is the new leftover, or is discarded after the zero scan on the final codeword. -/
def Obligations.AccumulateIsByteLoop : Prop :=
  ∀ (len : BitVec 3) (bits : BitVec 7) (d : Data) (last : Bool),
    let a := accumulate len bits d last
    let seq := carrySeq len bits ++ dataSeq d
    a.bytes = (packBytes seq).1 ∧
    (last = false → a.adv = a.bytes.length ∧ carrySeq a.len a.bits = (packBytes seq).2 ∧ a.bits.toNat < 2 ^ a.len.toNat) ∧
    (last = true → a.len = 0 ∧ a.bits = 0 ∧ a.adv ≤ a.bytes.length ∧ a.bytes[a.adv]?.getD 0 = 0 ∧
      ∀ j, j < a.adv → ∃ b, a.bytes[j]? = some b ∧ b ≠ 0)

/-- spec/41_accumulator.md R115. -/
def Obligations.CarryLengthCycle : Prop :=
  (∀ (bits : BitVec 7) (d : Data),
    let n := fun len => (accumulate len bits d false).bytes.length
    let l := fun len => (accumulate len bits d false).len
    (n 0, l 0) = (3, 2) ∧ (n 2, l 2) = (3, 4) ∧ (n 4, l 4) = (3, 6) ∧ (n 6, l 6) = (4, 0)) ∧
  ∀ d0 d1 d2 d3 : Data,
    (accumulateAll 0 0 [d0, d1, d2, d3]).1.length = 13 ∧ (accumulateAll 0 0 [d0, d1, d2, d3]).2 = (0, 0)

/-- spec/41_accumulator.md R117: accumulating any number of codewords, from any leftover, is one pass over the whole bit
sequence. -/
def Obligations.CarryIdempotence : Prop :=
  ∀ (len : BitVec 3) (bits : BitVec 7) (ds : List Data),
    let r := accumulateAll len bits ds
    let seq := carrySeq len bits ++ ds.flatMap dataSeq
    r.1 = (packBytes seq).1 ∧ carrySeq r.2.1 r.2.2 = (packBytes seq).2

/-- spec/41_accumulator.md R117 across commits: what the host takes from any number of non-final blocks of decodable
codewords, each of at most 128, is one pass over the committed carry and all their data; the last committed carry is the
rest. -/
def Obligations.BlocksDeliverTheStream : Prop :=
  ∀ (blocks : List (List Word)) (s : State), s.xstate = .ready →
    (∀ ws ∈ blocks, ws.length ≤ 128 ∧ ∀ w ∈ ws, decodable w) →
    ∃ t, deliver blocks s =
        some ((packBytes (carrySeq s.clen s.cbits ++ dataStream blocks.flatten)).1.map some, t) ∧
      t.xstate = .ready ∧
      carrySeq t.clen t.cbits = (packBytes (carrySeq s.clen s.cbits ++ dataStream blocks.flatten)).2

/-- spec/41_accumulator.md R113 in a final block: the bytes of the codewords before the last, then those of the last up to its
first zero byte; the committed carry is empty and the transfer is done. -/
def Obligations.FinalBlockDelivers : Prop :=
  ∀ (ws : List Word) (w : Word) (s : State), s.xstate = .ready → ws.length < 128 →
    (∀ v ∈ ws, decodable v) → decodable w →
    let before := packBytes (carrySeq s.clen s.cbits ++ dataStream ws)
    let final := (packBytes (before.2 ++ dataSeq (decodeCodeword w).data)).1
    ∃ t, execAll (wholeBlock true (ws ++ [w])) s = .next t ∧
      t.resp = .ok ∧ t.xstate = .done ∧ t.clen = 0 ∧ t.cbits = 0 ∧
      committedBytes t = (before.1 ++ final.takeWhile (· != 0)).map some

/-- spec/41_accumulator.md R116: a full block of 128 decodable codewords gives exactly 416 bytes and leaves the length of the
carry it found. -/
def Obligations.FullBlock : Prop :=
  ∀ (ws : List Word) (s : State), s.xstate = .ready → ws.length = 128 → (∀ w ∈ ws, decodable w) →
    carryLegal s.clen s.cbits →
    ∃ t, execAll (wholeBlock false ws) s = .next t ∧ t.resp = .ok ∧ t.ocnt.toNat = 416 ∧ t.clen = s.clen ∧
      (committedBytes t).length = 416 ∧ ∀ b ∈ committedBytes t, b.isSome = true

/-! ### Laws of blocks -/

/-- spec/42_block_control.md R136 for a block that holds an uncorrectable codeword, and for one that is aborted after any
number of its codewords; a malformed BBEGIN is `BbeginResult`. -/
def Obligations.NoPartialAcceptance : Prop :=
  (∀ (final : Bool) (ws : List Word) (s : State), s.xstate = .ready → ws.length ≤ 128 →
    (∃ w ∈ ws, ¬ decodable w) →
    ∃ t, execAll (wholeBlock final ws) s = .next t ∧
      t.resp = .uncorr ∧ t.xstate = .ready ∧ t.clen = s.clen ∧ t.cbits = s.cbits ∧ t.ocnt = 0) ∧
  ∀ (final : Bool) (ws : List Word) (k : Nat) (s : State), s.xstate = .ready → ws.length ≤ 128 →
    ∃ t, execAll (abortedBlock final ws k) s = .next t ∧
      t.resp = .ok ∧ t.xstate = .ready ∧ t.clen = s.clen ∧ t.cbits = s.cbits ∧ t.ocnt = 0

/-- spec/42_block_control.md R137: after any number of attempts that ended in an UNCORR commit or in an abort, in any order and
delivering nothing, the block gives what it would have given the first time. -/
def Obligations.RetransmissionDeterminism : Prop :=
  ∀ (final : Bool) (attempts : List Attempt) (ws : List Word) (s : State), s.xstate = .ready →
    (∀ a ∈ attempts, a.fails) → ws.length ≤ 128 →
    ∃ r t u, execAll (attempts.flatMap Attempt.commands) s = .next r ∧
      (∀ a, attempts.getLast? = some a → r.resp = a.response ∧ committedBytes r = []) ∧
      execAll (wholeBlock final ws) r = .next t ∧ execAll (wholeBlock final ws) s = .next u ∧
      t.resp = u.resp ∧ t.xstate = u.xstate ∧ t.clen = u.clen ∧ t.cbits = u.cbits ∧ t.ocnt = u.ocnt ∧
      committedBytes t = committedBytes u

/-- spec/42_block_control.md R138, R78: the pushes of any codewords, one each in order, `L` on the last alone and only in a final
block; and the commands the host issues for a payload: BBEGIN with its length, the pushes of its 4-byte codewords, `L` on the
last exactly when the payload is shorter than 512, and BCOMMIT. -/
def Obligations.ProtocolBlock : Prop :=
  (∀ (final : Bool) (ws : List Word), (pushCommands final ws).length = ws.length ∧
    ∀ j w, ws[j]? = some w → (pushCommands final ws)[j]? = some (Instr.cwpush (final && decide (j + 1 = ws.length)) w)) ∧
  ∀ payload : List Byte, payload.length % 4 = 0 → payload.length ≤ 512 →
    blockCommands payload = wholeBlock (payload.length < 512) (payloadWords payload) ∧
    4 * (payloadWords payload).length = payload.length ∧
    ∃ (len : BitVec 16) (pushes : List Instr),
      blockCommands payload = .bbegin len :: (pushes ++ [.bcommit]) ∧ len.toNat = payload.length ∧
      4 * pushes.length = payload.length ∧
      ∀ j, 4 * j + 3 < payload.length → ∃ b0 b1 b2 b3, payload[4 * j]? = some b0 ∧ payload[4 * j + 1]? = some b1 ∧
        payload[4 * j + 2]? = some b2 ∧ payload[4 * j + 3]? = some b3 ∧
        (payloadWords payload)[j]? = some (codewordOfBytes b0 b1 b2 b3) ∧
        pushes[j]? = some (Instr.cwpush (decide (payload.length < 512 ∧ 4 * j + 4 = payload.length))
          (codewordOfBytes b0 b1 b2 b3))

/-- spec/42_block_control.md R139: the empty final payload commits zero bytes and leaves READY. -/
def Obligations.EmptyPayload : Prop :=
  ∀ s : State, s.xstate = .ready →
    ∃ t, execAll (blockCommands []) s = .next t ∧ t.resp = .ok ∧ t.xstate = .ready ∧ t.ocnt = 0 ∧
      t.clen = s.clen ∧ t.cbits = s.cbits ∧ committedBytes t = []

/-! ### The invariant -/

/-- Reset is in the invariant. -/
def Obligations.ResetMeetsInvariant : Prop := Inv State.reset

/-- spec/10_state.md R25, R26, spec/41_accumulator.md R118: every step keeps the invariant, from every state that has it. -/
def Obligations.StepKeepsInvariant : Prop := ∀ s t : State, Inv s → step s = .next t → Inv t

/-- Every clock edge keeps the invariant, whatever the pins. -/
def Obligations.TickKeepsInvariant : Prop := ∀ (p : Pins) (s t : State), Inv s → tick p s = .next t → Inv t

/-- spec/41_accumulator.md R118, spec/60_exceptions.md R161: in the invariant no step stops, whatever the host does: every
OBUF index written is in 0..415, and the block goes on after every response. -/
def Obligations.StepNeverStops : Prop := ∀ s : State, Inv s → ∃ t, step s = .next t

/-! ### The host read space -/

/-- spec/10_state.md R30 to R34: every field of the five status words, and the reserved bits; with the numbers that
spec/60_exceptions.md R160, spec/10_state.md R27 and spec/40_codeword_decoder.md R90 give the responses, the sequencing states
and the classes. -/
def Obligations.StatusWordFields : Prop :=
  ∀ s : State,
    (let w := readWord s 0x00
     (w.extractLsb' 0 3).toNat = (match s.resp with | .ok => 0 | .uncorr => 1 | .malformed => 2 | .seq => 3 | .illegal => 4) ∧
     (w.extractLsb' 3 2).toNat = (match s.xstate with | .ready => 0 | .inblk => 1 | .done => 2) ∧
     w.getLsbD 5 = s.berr ∧ w.getLsbD 6 = s.lseen ∧
     w.extractLsb' 7 25 = 0) ∧
    (let w := readWord s 0x01
     w.extractLsb' 0 9 = s.ocnt ∧ w.extractLsb' 9 9 = s.wptr ∧ w.extractLsb' 18 8 = s.cwrem ∧ w.extractLsb' 26 6 = 0) ∧
    (let w := readWord s 0x02
     (w.extractLsb' 0 2).toNat = (match s.dclass with | .clean => 0 | .corrected => 1 | .p32 => 2 | .uncorr => 3) ∧
     w.getLsbD 2 = s.dopf ∧ w.extractLsb' 3 5 = s.dsyn ∧
     w.extractLsb' 8 6 = s.dcpos ∧ w.extractLsb' 14 18 = 0) ∧
    (let w := readWord s 0x03
     w.extractLsb' 0 26 = s.ddata ∧ w.extractLsb' 26 6 = 0) ∧
    (let w := readWord s 0x04
     w.extractLsb' 0 7 = s.cbits ∧ w.getLsbD 7 = false ∧ w.extractLsb' 8 3 = s.clen ∧ w.extractLsb' 11 5 = 0 ∧
     w.extractLsb' 16 7 = s.wbits ∧ w.getLsbD 23 = false ∧ w.extractLsb' 24 3 = s.wlen ∧ w.extractLsb' 27 5 = 0)

/-- spec/20_memory.md R56, R58, R59: which byte each lane of the read space holds, where it is a draw, and the reserved
addresses. -/
def Obligations.ReadSpaceMap : Prop :=
  ∀ (s : State) (a : Byte),
    (((0x05 ≤ a.toNat ∧ a.toNat ≤ 0x3F) ∨ 0xA8 ≤ a.toNat) → readWord s a = 0) ∧
    ∀ i, 4 * (a.toNat - 0x40) ≤ i → i < 4 * (a.toNat - 0x40) + 4 → 0x40 ≤ a.toNat → a.toNat ≤ 0xA7 →
      let lane := (readWord s a).extractLsb' (24 - 8 * (i % 4)) 8
      (∀ b, i < s.ocnt.toNat → s.obuf.get i = some b → lane = b) ∧
      (s.ocnt.toNat ≤ i → lane = Config.freeByte s.draws (i % 4))

/-- spec/42_block_control.md R140: the output addresses are those that hold a committed byte and no others, and every committed
byte is read at its address. -/
def Obligations.CommittedOutputReadable : Prop :=
  (∀ (s : State) (a : Nat), a ∈ outputAddresses s ↔ ∃ i, i < s.ocnt.toNat ∧ a = 0x40 + i / 4) ∧
  ∀ (s : State) (i : Nat) (b : Byte), s.ocnt.toNat ≤ 416 → i < s.ocnt.toNat → s.obuf.get i = some b →
    0x40 + i / 4 ∈ outputAddresses s ∧ 0x40 + i / 4 ≤ 0xA7 ∧
    (readWord s (BitVec.ofNat 8 (0x40 + i / 4))).extractLsb' (24 - 8 * (i % 4)) 8 = b

/-- spec/20_memory.md R57: a host read changes no register and no byte of OBUF, and reading again gives the same word outside
the output words, and in an output word every committed lane again, whatever the other lanes hold (an index below OCNT that
nothing has written, which no run reaches, is a draw too: log 3). -/
def Obligations.ReadHasNoSideEffect : Prop :=
  ∀ (s : State) (a : Byte) (rest : List HostEvent), s.inflight = none → s.host = .read a :: .read a :: rest →
    ∃ t u, step s = .next t ∧ step t = .next u ∧ t.block = s.block ∧ u.block = s.block ∧
      t.rdData = readWord s a ∧ u.host = rest ∧
      ((∀ i, 0x40 ≤ a.toNat → a.toNat ≤ 0xA7 → i / 4 = a.toNat - 0x40 →
          i < s.ocnt.toNat ∧ (s.obuf.get i).isSome = true) → u.rdData = t.rdData) ∧
      (a.toNat < 0x40 ∨ 0xA7 < a.toNat → u.rdData = t.rdData) ∧
      ∀ i, 0x40 ≤ a.toNat → a.toNat ≤ 0xA7 → i / 4 = a.toNat - 0x40 → i < s.ocnt.toNat → (s.obuf.get i).isSome = true →
        u.rdData.extractLsb' (24 - 8 * (i % 4)) 8 = t.rdData.extractLsb' (24 - 8 * (i % 4)) 8

/-- spec/70_reset_and_hazards.md R185: the committed output stays readable until a BBEGIN or BABORT that is accepted, a BCOMMIT
that answers UNCORR, or XRST, each of which sets OCNT to 0. That a BBEGIN rejected with MALFORMED leaves it readable is the
model's reading of spec/42_block_control.md R133 and spec/60_exceptions.md R162 against R136 (log 21, DEDUCED, unsafe); R185
itself says only "until the next BBEGIN". -/
def Obligations.ReadoutWindow : Prop :=
  ∀ (i : Instr) (s t : State), Inv s → exec i s = .next t →
    ((mnemonicOf i = .bbegin ∧ t.resp = .ok ∨ mnemonicOf i = .xrst ∨ mnemonicOf i = .babort ∧ t.resp = .ok ∨
      mnemonicOf i = .bcommit ∧ t.resp = .uncorr) → t.ocnt = 0) ∧
    (mnemonicOf i ∈ [.nop, .cwpush, .cwdec] ∨ t.resp ∈ [.seq, .malformed] → committedBytes t = committedBytes s)

/-! ### The clock -/

/-- spec/70_reset_and_hazards.md R186: an accepted command keeps the block busy and its registers as they were until
CMD_LATENCY edges after acceptance, when its effects, those of the transaction, are visible and `done` pulses for one cycle. -/
def Obligations.HandshakeRefinesTransaction : Prop :=
  ∀ (s t : State) (p : Pins) (ps : List Pins), s.inflight = none → p.rst = false → p.cmdValid = true →
    (∀ q ∈ ps, q.rst = false) → ps.length = cmdLatency p.command s → step (s.present p.command) = .next t →
    1 ≤ cmdLatency p.command s ∧
    (∀ k, k < ps.length → ∃ u, tickAll (p :: ps.take k) s = .next u ∧ u.block = s.block ∧ u.done = false ∧
      ∀ q, cmdReady q u = false) ∧
    ∃ u, tickAll (p :: ps) s = .next u ∧ u.block = t.block ∧ u.done = true ∧ u.inflight = none ∧
      (∀ q : Pins, q.rst = false → cmdReady q u = true) ∧
      ∀ q v, tick q u = .next v → v.done = false

/-- spec/60_exceptions.md R171: between commands the block is ready and keeps all its state; only the pulse on `done` ends. -/
def Obligations.IdleRetainsState : Prop :=
  ∀ s : State, s.inflight = none →
    (s.host = [] → step s = .next { s with done := false }) ∧
    ∀ p : Pins, p.rst = false → cmdReady p s = true ∧
      (p.cmdValid = false → ∃ t, tick p s = .next t ∧ t.block = s.block ∧ t.inflight = none ∧ t.host = s.host)

/-- spec/70_reset_and_hazards.md R183: while `cmd_ready = 0`, what the host presents on `cmd_valid`, `cmd` and `arg` is not
accepted and has no effect. -/
def Obligations.BusyBlockAcceptsNothing : Prop :=
  ∀ (s : State) (p q : Pins), cmdReady p s = false → p.rst = q.rst → p.rdAddr = q.rdAddr →
    accepts p s = false ∧ tick p s = tick q s

/-- spec/70_reset_and_hazards.md R184, spec/20_memory.md R58: a word read while a command is in progress is a draw, at the
clock and at the transaction level; when the block is idle and accepts nothing, it is the word of the read space. -/
def Obligations.ReadDuringCommandIsDraw : Prop :=
  (∀ (s t : State) (p : Pins), s.inflight ≠ none → tick p s = .next t →
    t.rdData = Config.freeWord s.draws ∧ t.draws = s.draws + 1) ∧
  (∀ (s : State) (a : Byte) (rest : List HostEvent), s.inflight = none → s.host = .readDuring a :: rest →
    ∃ t, step s = .next t ∧ t.block = s.block ∧ t.rdData = Config.freeWord s.draws ∧ t.host = rest) ∧
  ∀ (s : State) (p : Pins), s.inflight = none → p.rst = false → p.cmdValid = false →
    ∃ t, tick p s = .next t ∧ t.block = s.block ∧ t.rdData = readWord s p.rdAddr
end

