-- ==== Sys2Proof/Laws/Memory.lean ====
section
/-!
SUPPORT. OBUF: read after write, and every memory operation keeps the canonical form.
-/

namespace Sys2Proof.Machine

@[simp] theorem Memory.get_nil (a : Nat) : Memory.get [] a = none := rfl

theorem Memory.get_set (m : Memory) (a b : Nat) (v : Byte) :
    (m.set a v).get b = if b = a then some v else m.get b := by
  induction m with
  | nil => simp [Memory.set, Memory.get, eq_comm]
  | cons c m ih =>
    obtain ⟨k, w⟩ := c
    simp only [Memory.set]
    split
    · simp only [Memory.get, eq_comm (a := a)]
    · split
      · subst_vars
        simp only [Memory.get, eq_comm (a := k)]
        split <;> rfl
      · simp only [Memory.get, ih, eq_comm (a := k)]
        by_cases h : b = a <;> by_cases h' : b = k
        · omega
        · simp [h]; omega
        · simp [h']; omega
        · simp [h, h']

/-- Read after write to the same index. -/
@[simp] theorem Memory.get_set_same (m : Memory) (a : Nat) (v : Byte) : (m.set a v).get a = some v := by
  simp [Memory.get_set]

/-- A write leaves every other index alone. -/
theorem Memory.get_set_other (m : Memory) {a b : Nat} (v : Byte) (h : b ≠ a) : (m.set a v).get b = m.get b := by
  simp [Memory.get_set, h]

/-- What a run of writes leaves at each index. -/
theorem Memory.get_setAll (bs : List Byte) (m : Memory) (a i : Nat) :
    (m.setAll a bs).get i = if a ≤ i ∧ i < a + bs.length then bs[i - a]? else m.get i := by
  induction bs generalizing m a with
  | nil => simp [Memory.setAll]
  | cons b bs ih =>
    simp only [Memory.setAll, ih, Memory.get_set, List.length_cons]
    by_cases h : i = a
    · subst h; simp
    · by_cases h1 : a + 1 ≤ i
      · obtain ⟨k, rfl⟩ : ∃ k, i = a + 1 + k := ⟨i - (a + 1), by omega⟩
        have e : a + 1 + k - a = k + 1 := by omega
        by_cases h2 : k < bs.length
        · rw [if_pos (by omega), if_pos (by omega), e]
          simp
        · rw [if_neg (by omega), if_neg h, if_neg (by omega)]
      · rw [if_neg (by omega), if_neg h, if_neg (by omega)]

/-- A byte inside the written run. -/
theorem Memory.get_setAll_inside (bs : List Byte) (m : Memory) {a j : Nat} (h : j < bs.length) :
    (m.setAll a bs).get (a + j) = bs[j]? := by
  rw [Memory.get_setAll, if_pos (by omega)]; congr 1; omega

/-- A byte outside the written run. -/
theorem Memory.get_setAll_outside (bs : List Byte) (m : Memory) {a i : Nat} (h : i < a ∨ a + bs.length ≤ i) :
    (m.setAll a bs).get i = m.get i := by
  rw [Memory.get_setAll, if_neg (by omega)]

/-- Every cell of a written memory is the new one or an old one. -/
theorem Memory.mem_set {m : Memory} {a : Nat} {v : Byte} {c : Host.Cell} (h : c ∈ m.set a v) : c = (a, v) ∨ c ∈ m := by
  induction m with
  | nil => simpa [Memory.set] using h
  | cons d m ih =>
    obtain ⟨k, w⟩ := d
    simp only [Memory.set] at h
    split at h
    · simpa using h
    · split at h
      · simp only [List.mem_cons] at h ⊢; tauto
      · simp only [List.mem_cons] at h ⊢
        rcases h with h | h
        · tauto
        · have := ih h; tauto

/-- A write inside OBUF keeps the canonical form. -/
theorem Memory.set_wf {m : Memory} (h : m.wf) {a : Nat} (ha : a < obufBytes) (v : Byte) : (m.set a v).wf := by
  refine ⟨?_, fun c hc => (Memory.mem_set hc).elim (fun e => by simpa [e] using ha) (h.2 c)⟩
  have hp := h.1
  clear h ha
  induction m with
  | nil => simp [Memory.set]
  | cons d m ih =>
    obtain ⟨k, w⟩ := d
    simp only [Memory.set]
    rw [List.pairwise_cons] at hp
    split
    · rename_i hlt
      refine List.pairwise_cons.2 ⟨?_, List.pairwise_cons.2 hp⟩
      intro c hc
      rcases List.mem_cons.1 hc with rfl | hc
      · exact hlt
      · exact lt_trans hlt (hp.1 c hc)
    · split
      · rename_i he
        subst he
        exact List.pairwise_cons.2 hp
      · refine List.pairwise_cons.2 ⟨fun c hc => ?_, ih hp.2⟩
        rcases Memory.mem_set hc with rfl | hc
        · simp only; omega
        · exact hp.1 c hc

/-- A run of writes inside OBUF keeps the canonical form. -/
theorem Memory.setAll_wf (bs : List Byte) {m : Memory} (h : m.wf) {a : Nat} (ha : a + bs.length ≤ obufBytes) :
    (m.setAll a bs).wf := by
  induction bs generalizing m a with
  | nil => exact h
  | cons b bs ih =>
    simp only [List.length_cons] at ha
    exact ih (Memory.set_wf h (by omega) b) (by omega)

/-- The memory at reset is in canonical form. -/
theorem reset_memory_wf : State.reset.obuf.wf := by decide

/-- Storing a run answers the state with the run written, inside OBUF; it stops past index 415. -/
theorem obufStore_cases (base : Nat) (bs : List Byte) (s : State) :
    (base + bs.length ≤ obufBytes ∧ obufStore base bs s = .next (s.withObuf (s.obuf.setAll base bs))) ∨
    (obufBytes < base + bs.length ∧ obufStore base bs s = .fault (.obufRange (base + bs.length - 1))) := by
  unfold obufStore
  by_cases h : base + bs.length ≤ obufBytes
  · exact .inl ⟨h, if_pos h⟩
  · exact .inr ⟨by omega, if_neg h⟩

/-- Storing a run keeps the canonical form. -/
theorem obufStore_wf {base : Nat} {bs : List Byte} {s t : State} (h : s.obuf.wf) (e : obufStore base bs s = .next t) :
    t.obuf.wf := by
  rcases obufStore_cases base bs s with ⟨hb, he⟩ | ⟨-, he⟩
  · rw [he] at e; cases e; exact Memory.setAll_wf bs h hb
  · rw [he] at e; cases e

end Sys2Proof.Machine
end

