-- ==== Sys2Proof/Laws/State.lean ====
section
/-!
SUPPORT. One lemma per field per update of State, each true by definition, so that no later proof unfolds a record update.
-/

namespace Sys2Proof.Machine

variable (s : State)

/-! ### withResp -/

@[simp] theorem State.withResp_resp (code : Resp) : (s.withResp code).resp = code := rfl
@[simp] theorem State.withResp_xstate (code : Resp) : (s.withResp code).xstate = s.xstate := rfl
@[simp] theorem State.withResp_berr (code : Resp) : (s.withResp code).berr = s.berr := rfl
@[simp] theorem State.withResp_lseen (code : Resp) : (s.withResp code).lseen = s.lseen := rfl
@[simp] theorem State.withResp_cwrem (code : Resp) : (s.withResp code).cwrem = s.cwrem := rfl
@[simp] theorem State.withResp_wptr (code : Resp) : (s.withResp code).wptr = s.wptr := rfl
@[simp] theorem State.withResp_ocnt (code : Resp) : (s.withResp code).ocnt = s.ocnt := rfl
@[simp] theorem State.withResp_clen (code : Resp) : (s.withResp code).clen = s.clen := rfl
@[simp] theorem State.withResp_cbits (code : Resp) : (s.withResp code).cbits = s.cbits := rfl
@[simp] theorem State.withResp_wlen (code : Resp) : (s.withResp code).wlen = s.wlen := rfl
@[simp] theorem State.withResp_wbits (code : Resp) : (s.withResp code).wbits = s.wbits := rfl
@[simp] theorem State.withResp_dclass (code : Resp) : (s.withResp code).dclass = s.dclass := rfl
@[simp] theorem State.withResp_dopf (code : Resp) : (s.withResp code).dopf = s.dopf := rfl
@[simp] theorem State.withResp_dsyn (code : Resp) : (s.withResp code).dsyn = s.dsyn := rfl
@[simp] theorem State.withResp_dcpos (code : Resp) : (s.withResp code).dcpos = s.dcpos := rfl
@[simp] theorem State.withResp_ddata (code : Resp) : (s.withResp code).ddata = s.ddata := rfl
@[simp] theorem State.withResp_obuf (code : Resp) : (s.withResp code).obuf = s.obuf := rfl
@[simp] theorem State.withResp_inflight (code : Resp) : (s.withResp code).inflight = s.inflight := rfl
@[simp] theorem State.withResp_done (code : Resp) : (s.withResp code).done = s.done := rfl
@[simp] theorem State.withResp_rdData (code : Resp) : (s.withResp code).rdData = s.rdData := rfl
@[simp] theorem State.withResp_host (code : Resp) : (s.withResp code).host = s.host := rfl
@[simp] theorem State.withResp_draws (code : Resp) : (s.withResp code).draws = s.draws := rfl

/-! ### clearRegisters -/

@[simp] theorem State.clearRegisters_resp : s.clearRegisters.resp = .ok := rfl
@[simp] theorem State.clearRegisters_xstate : s.clearRegisters.xstate = .ready := rfl
@[simp] theorem State.clearRegisters_berr : s.clearRegisters.berr = false := rfl
@[simp] theorem State.clearRegisters_lseen : s.clearRegisters.lseen = false := rfl
@[simp] theorem State.clearRegisters_cwrem : s.clearRegisters.cwrem = 0 := rfl
@[simp] theorem State.clearRegisters_wptr : s.clearRegisters.wptr = 0 := rfl
@[simp] theorem State.clearRegisters_ocnt : s.clearRegisters.ocnt = 0 := rfl
@[simp] theorem State.clearRegisters_clen : s.clearRegisters.clen = 0 := rfl
@[simp] theorem State.clearRegisters_cbits : s.clearRegisters.cbits = 0 := rfl
@[simp] theorem State.clearRegisters_wlen : s.clearRegisters.wlen = 0 := rfl
@[simp] theorem State.clearRegisters_wbits : s.clearRegisters.wbits = 0 := rfl
@[simp] theorem State.clearRegisters_dclass : s.clearRegisters.dclass = .clean := rfl
@[simp] theorem State.clearRegisters_dopf : s.clearRegisters.dopf = false := rfl
@[simp] theorem State.clearRegisters_dsyn : s.clearRegisters.dsyn = 0 := rfl
@[simp] theorem State.clearRegisters_dcpos : s.clearRegisters.dcpos = 0 := rfl
@[simp] theorem State.clearRegisters_ddata : s.clearRegisters.ddata = 0 := rfl
@[simp] theorem State.clearRegisters_obuf : s.clearRegisters.obuf = s.obuf := rfl
@[simp] theorem State.clearRegisters_inflight : s.clearRegisters.inflight = s.inflight := rfl
@[simp] theorem State.clearRegisters_done : s.clearRegisters.done = s.done := rfl
@[simp] theorem State.clearRegisters_rdData : s.clearRegisters.rdData = s.rdData := rfl
@[simp] theorem State.clearRegisters_host : s.clearRegisters.host = s.host := rfl
@[simp] theorem State.clearRegisters_draws : s.clearRegisters.draws = s.draws := rfl

/-! ### openBlock -/

@[simp] theorem State.openBlock_resp (n : Nat) : (s.openBlock n).resp = s.resp := rfl
@[simp] theorem State.openBlock_xstate (n : Nat) : (s.openBlock n).xstate = .inblk := rfl
@[simp] theorem State.openBlock_berr (n : Nat) : (s.openBlock n).berr = false := rfl
@[simp] theorem State.openBlock_lseen (n : Nat) : (s.openBlock n).lseen = false := rfl
@[simp] theorem State.openBlock_cwrem (n : Nat) : (s.openBlock n).cwrem = BitVec.ofNat 8 (n / 4) := rfl
@[simp] theorem State.openBlock_wptr (n : Nat) : (s.openBlock n).wptr = 0 := rfl
@[simp] theorem State.openBlock_ocnt (n : Nat) : (s.openBlock n).ocnt = 0 := rfl
@[simp] theorem State.openBlock_clen (n : Nat) : (s.openBlock n).clen = s.clen := rfl
@[simp] theorem State.openBlock_cbits (n : Nat) : (s.openBlock n).cbits = s.cbits := rfl
@[simp] theorem State.openBlock_wlen (n : Nat) : (s.openBlock n).wlen = s.clen := rfl
@[simp] theorem State.openBlock_wbits (n : Nat) : (s.openBlock n).wbits = s.cbits := rfl
@[simp] theorem State.openBlock_dclass (n : Nat) : (s.openBlock n).dclass = s.dclass := rfl
@[simp] theorem State.openBlock_dopf (n : Nat) : (s.openBlock n).dopf = s.dopf := rfl
@[simp] theorem State.openBlock_dsyn (n : Nat) : (s.openBlock n).dsyn = s.dsyn := rfl
@[simp] theorem State.openBlock_dcpos (n : Nat) : (s.openBlock n).dcpos = s.dcpos := rfl
@[simp] theorem State.openBlock_ddata (n : Nat) : (s.openBlock n).ddata = s.ddata := rfl
@[simp] theorem State.openBlock_obuf (n : Nat) : (s.openBlock n).obuf = s.obuf := rfl
@[simp] theorem State.openBlock_inflight (n : Nat) : (s.openBlock n).inflight = s.inflight := rfl
@[simp] theorem State.openBlock_done (n : Nat) : (s.openBlock n).done = s.done := rfl
@[simp] theorem State.openBlock_rdData (n : Nat) : (s.openBlock n).rdData = s.rdData := rfl
@[simp] theorem State.openBlock_host (n : Nat) : (s.openBlock n).host = s.host := rfl
@[simp] theorem State.openBlock_draws (n : Nat) : (s.openBlock n).draws = s.draws := rfl

/-! ### countCodeword -/

@[simp] theorem State.countCodeword_resp (l : Bool) : (s.countCodeword l).resp = s.resp := rfl
@[simp] theorem State.countCodeword_xstate (l : Bool) : (s.countCodeword l).xstate = s.xstate := rfl
@[simp] theorem State.countCodeword_berr (l : Bool) : (s.countCodeword l).berr = s.berr := rfl
@[simp] theorem State.countCodeword_lseen (l : Bool) : (s.countCodeword l).lseen = (s.lseen || l) := rfl
@[simp] theorem State.countCodeword_cwrem (l : Bool) : (s.countCodeword l).cwrem = s.cwrem - 1 := rfl
@[simp] theorem State.countCodeword_wptr (l : Bool) : (s.countCodeword l).wptr = s.wptr := rfl
@[simp] theorem State.countCodeword_ocnt (l : Bool) : (s.countCodeword l).ocnt = s.ocnt := rfl
@[simp] theorem State.countCodeword_clen (l : Bool) : (s.countCodeword l).clen = s.clen := rfl
@[simp] theorem State.countCodeword_cbits (l : Bool) : (s.countCodeword l).cbits = s.cbits := rfl
@[simp] theorem State.countCodeword_wlen (l : Bool) : (s.countCodeword l).wlen = s.wlen := rfl
@[simp] theorem State.countCodeword_wbits (l : Bool) : (s.countCodeword l).wbits = s.wbits := rfl
@[simp] theorem State.countCodeword_dclass (l : Bool) : (s.countCodeword l).dclass = s.dclass := rfl
@[simp] theorem State.countCodeword_dopf (l : Bool) : (s.countCodeword l).dopf = s.dopf := rfl
@[simp] theorem State.countCodeword_dsyn (l : Bool) : (s.countCodeword l).dsyn = s.dsyn := rfl
@[simp] theorem State.countCodeword_dcpos (l : Bool) : (s.countCodeword l).dcpos = s.dcpos := rfl
@[simp] theorem State.countCodeword_ddata (l : Bool) : (s.countCodeword l).ddata = s.ddata := rfl
@[simp] theorem State.countCodeword_obuf (l : Bool) : (s.countCodeword l).obuf = s.obuf := rfl
@[simp] theorem State.countCodeword_inflight (l : Bool) : (s.countCodeword l).inflight = s.inflight := rfl
@[simp] theorem State.countCodeword_done (l : Bool) : (s.countCodeword l).done = s.done := rfl
@[simp] theorem State.countCodeword_rdData (l : Bool) : (s.countCodeword l).rdData = s.rdData := rfl
@[simp] theorem State.countCodeword_host (l : Bool) : (s.countCodeword l).host = s.host := rfl
@[simp] theorem State.countCodeword_draws (l : Bool) : (s.countCodeword l).draws = s.draws := rfl

/-! ### markBerr -/

@[simp] theorem State.markBerr_resp : s.markBerr.resp = s.resp := rfl
@[simp] theorem State.markBerr_xstate : s.markBerr.xstate = s.xstate := rfl
@[simp] theorem State.markBerr_berr : s.markBerr.berr = true := rfl
@[simp] theorem State.markBerr_lseen : s.markBerr.lseen = s.lseen := rfl
@[simp] theorem State.markBerr_cwrem : s.markBerr.cwrem = s.cwrem := rfl
@[simp] theorem State.markBerr_wptr : s.markBerr.wptr = s.wptr := rfl
@[simp] theorem State.markBerr_ocnt : s.markBerr.ocnt = s.ocnt := rfl
@[simp] theorem State.markBerr_clen : s.markBerr.clen = s.clen := rfl
@[simp] theorem State.markBerr_cbits : s.markBerr.cbits = s.cbits := rfl
@[simp] theorem State.markBerr_wlen : s.markBerr.wlen = s.wlen := rfl
@[simp] theorem State.markBerr_wbits : s.markBerr.wbits = s.wbits := rfl
@[simp] theorem State.markBerr_dclass : s.markBerr.dclass = s.dclass := rfl
@[simp] theorem State.markBerr_dopf : s.markBerr.dopf = s.dopf := rfl
@[simp] theorem State.markBerr_dsyn : s.markBerr.dsyn = s.dsyn := rfl
@[simp] theorem State.markBerr_dcpos : s.markBerr.dcpos = s.dcpos := rfl
@[simp] theorem State.markBerr_ddata : s.markBerr.ddata = s.ddata := rfl
@[simp] theorem State.markBerr_obuf : s.markBerr.obuf = s.obuf := rfl
@[simp] theorem State.markBerr_inflight : s.markBerr.inflight = s.inflight := rfl
@[simp] theorem State.markBerr_done : s.markBerr.done = s.done := rfl
@[simp] theorem State.markBerr_rdData : s.markBerr.rdData = s.rdData := rfl
@[simp] theorem State.markBerr_host : s.markBerr.host = s.host := rfl
@[simp] theorem State.markBerr_draws : s.markBerr.draws = s.draws := rfl

/-! ### dropBlock -/

@[simp] theorem State.dropBlock_resp : s.dropBlock.resp = s.resp := rfl
@[simp] theorem State.dropBlock_xstate : s.dropBlock.xstate = .ready := rfl
@[simp] theorem State.dropBlock_berr : s.dropBlock.berr = s.berr := rfl
@[simp] theorem State.dropBlock_lseen : s.dropBlock.lseen = s.lseen := rfl
@[simp] theorem State.dropBlock_cwrem : s.dropBlock.cwrem = s.cwrem := rfl
@[simp] theorem State.dropBlock_wptr : s.dropBlock.wptr = s.wptr := rfl
@[simp] theorem State.dropBlock_ocnt : s.dropBlock.ocnt = 0 := rfl
@[simp] theorem State.dropBlock_clen : s.dropBlock.clen = s.clen := rfl
@[simp] theorem State.dropBlock_cbits : s.dropBlock.cbits = s.cbits := rfl
@[simp] theorem State.dropBlock_wlen : s.dropBlock.wlen = s.wlen := rfl
@[simp] theorem State.dropBlock_wbits : s.dropBlock.wbits = s.wbits := rfl
@[simp] theorem State.dropBlock_dclass : s.dropBlock.dclass = s.dclass := rfl
@[simp] theorem State.dropBlock_dopf : s.dropBlock.dopf = s.dopf := rfl
@[simp] theorem State.dropBlock_dsyn : s.dropBlock.dsyn = s.dsyn := rfl
@[simp] theorem State.dropBlock_dcpos : s.dropBlock.dcpos = s.dcpos := rfl
@[simp] theorem State.dropBlock_ddata : s.dropBlock.ddata = s.ddata := rfl
@[simp] theorem State.dropBlock_obuf : s.dropBlock.obuf = s.obuf := rfl
@[simp] theorem State.dropBlock_inflight : s.dropBlock.inflight = s.inflight := rfl
@[simp] theorem State.dropBlock_done : s.dropBlock.done = s.done := rfl
@[simp] theorem State.dropBlock_rdData : s.dropBlock.rdData = s.rdData := rfl
@[simp] theorem State.dropBlock_host : s.dropBlock.host = s.host := rfl
@[simp] theorem State.dropBlock_draws : s.dropBlock.draws = s.draws := rfl

/-! ### commitBlock -/

@[simp] theorem State.commitBlock_resp : s.commitBlock.resp = s.resp := rfl
@[simp] theorem State.commitBlock_xstate : s.commitBlock.xstate = if s.lseen then .done else .ready := rfl
@[simp] theorem State.commitBlock_berr : s.commitBlock.berr = s.berr := rfl
@[simp] theorem State.commitBlock_lseen : s.commitBlock.lseen = s.lseen := rfl
@[simp] theorem State.commitBlock_cwrem : s.commitBlock.cwrem = s.cwrem := rfl
@[simp] theorem State.commitBlock_wptr : s.commitBlock.wptr = s.wptr := rfl
@[simp] theorem State.commitBlock_ocnt : s.commitBlock.ocnt = s.wptr := rfl
@[simp] theorem State.commitBlock_clen : s.commitBlock.clen = s.wlen := rfl
@[simp] theorem State.commitBlock_cbits : s.commitBlock.cbits = s.wbits := rfl
@[simp] theorem State.commitBlock_wlen : s.commitBlock.wlen = s.wlen := rfl
@[simp] theorem State.commitBlock_wbits : s.commitBlock.wbits = s.wbits := rfl
@[simp] theorem State.commitBlock_dclass : s.commitBlock.dclass = s.dclass := rfl
@[simp] theorem State.commitBlock_dopf : s.commitBlock.dopf = s.dopf := rfl
@[simp] theorem State.commitBlock_dsyn : s.commitBlock.dsyn = s.dsyn := rfl
@[simp] theorem State.commitBlock_dcpos : s.commitBlock.dcpos = s.dcpos := rfl
@[simp] theorem State.commitBlock_ddata : s.commitBlock.ddata = s.ddata := rfl
@[simp] theorem State.commitBlock_obuf : s.commitBlock.obuf = s.obuf := rfl
@[simp] theorem State.commitBlock_inflight : s.commitBlock.inflight = s.inflight := rfl
@[simp] theorem State.commitBlock_done : s.commitBlock.done = s.done := rfl
@[simp] theorem State.commitBlock_rdData : s.commitBlock.rdData = s.rdData := rfl
@[simp] theorem State.commitBlock_host : s.commitBlock.host = s.host := rfl
@[simp] theorem State.commitBlock_draws : s.commitBlock.draws = s.draws := rfl

/-! ### withDecoded -/

@[simp] theorem State.withDecoded_resp (d : Decoded) : (s.withDecoded d).resp = s.resp := rfl
@[simp] theorem State.withDecoded_xstate (d : Decoded) : (s.withDecoded d).xstate = s.xstate := rfl
@[simp] theorem State.withDecoded_berr (d : Decoded) : (s.withDecoded d).berr = s.berr := rfl
@[simp] theorem State.withDecoded_lseen (d : Decoded) : (s.withDecoded d).lseen = s.lseen := rfl
@[simp] theorem State.withDecoded_cwrem (d : Decoded) : (s.withDecoded d).cwrem = s.cwrem := rfl
@[simp] theorem State.withDecoded_wptr (d : Decoded) : (s.withDecoded d).wptr = s.wptr := rfl
@[simp] theorem State.withDecoded_ocnt (d : Decoded) : (s.withDecoded d).ocnt = s.ocnt := rfl
@[simp] theorem State.withDecoded_clen (d : Decoded) : (s.withDecoded d).clen = s.clen := rfl
@[simp] theorem State.withDecoded_cbits (d : Decoded) : (s.withDecoded d).cbits = s.cbits := rfl
@[simp] theorem State.withDecoded_wlen (d : Decoded) : (s.withDecoded d).wlen = s.wlen := rfl
@[simp] theorem State.withDecoded_wbits (d : Decoded) : (s.withDecoded d).wbits = s.wbits := rfl
@[simp] theorem State.withDecoded_dclass (d : Decoded) : (s.withDecoded d).dclass = d.cls := rfl
@[simp] theorem State.withDecoded_dopf (d : Decoded) : (s.withDecoded d).dopf = d.opf := rfl
@[simp] theorem State.withDecoded_dsyn (d : Decoded) : (s.withDecoded d).dsyn = d.syn := rfl
@[simp] theorem State.withDecoded_dcpos (d : Decoded) : (s.withDecoded d).dcpos = d.cpos := rfl
@[simp] theorem State.withDecoded_ddata (d : Decoded) : (s.withDecoded d).ddata = d.data := rfl
@[simp] theorem State.withDecoded_obuf (d : Decoded) : (s.withDecoded d).obuf = s.obuf := rfl
@[simp] theorem State.withDecoded_inflight (d : Decoded) : (s.withDecoded d).inflight = s.inflight := rfl
@[simp] theorem State.withDecoded_done (d : Decoded) : (s.withDecoded d).done = s.done := rfl
@[simp] theorem State.withDecoded_rdData (d : Decoded) : (s.withDecoded d).rdData = s.rdData := rfl
@[simp] theorem State.withDecoded_host (d : Decoded) : (s.withDecoded d).host = s.host := rfl
@[simp] theorem State.withDecoded_draws (d : Decoded) : (s.withDecoded d).draws = s.draws := rfl

/-! ### advance -/

@[simp] theorem State.advance_resp (a : Accumulated) : (s.advance a).resp = s.resp := rfl
@[simp] theorem State.advance_xstate (a : Accumulated) : (s.advance a).xstate = s.xstate := rfl
@[simp] theorem State.advance_berr (a : Accumulated) : (s.advance a).berr = s.berr := rfl
@[simp] theorem State.advance_lseen (a : Accumulated) : (s.advance a).lseen = s.lseen := rfl
@[simp] theorem State.advance_cwrem (a : Accumulated) : (s.advance a).cwrem = s.cwrem := rfl
@[simp] theorem State.advance_wptr (a : Accumulated) : (s.advance a).wptr = s.wptr + BitVec.ofNat 9 a.adv := rfl
@[simp] theorem State.advance_ocnt (a : Accumulated) : (s.advance a).ocnt = s.ocnt := rfl
@[simp] theorem State.advance_clen (a : Accumulated) : (s.advance a).clen = s.clen := rfl
@[simp] theorem State.advance_cbits (a : Accumulated) : (s.advance a).cbits = s.cbits := rfl
@[simp] theorem State.advance_wlen (a : Accumulated) : (s.advance a).wlen = a.len := rfl
@[simp] theorem State.advance_wbits (a : Accumulated) : (s.advance a).wbits = a.bits := rfl
@[simp] theorem State.advance_dclass (a : Accumulated) : (s.advance a).dclass = s.dclass := rfl
@[simp] theorem State.advance_dopf (a : Accumulated) : (s.advance a).dopf = s.dopf := rfl
@[simp] theorem State.advance_dsyn (a : Accumulated) : (s.advance a).dsyn = s.dsyn := rfl
@[simp] theorem State.advance_dcpos (a : Accumulated) : (s.advance a).dcpos = s.dcpos := rfl
@[simp] theorem State.advance_ddata (a : Accumulated) : (s.advance a).ddata = s.ddata := rfl
@[simp] theorem State.advance_obuf (a : Accumulated) : (s.advance a).obuf = s.obuf := rfl
@[simp] theorem State.advance_inflight (a : Accumulated) : (s.advance a).inflight = s.inflight := rfl
@[simp] theorem State.advance_done (a : Accumulated) : (s.advance a).done = s.done := rfl
@[simp] theorem State.advance_rdData (a : Accumulated) : (s.advance a).rdData = s.rdData := rfl
@[simp] theorem State.advance_host (a : Accumulated) : (s.advance a).host = s.host := rfl
@[simp] theorem State.advance_draws (a : Accumulated) : (s.advance a).draws = s.draws := rfl

/-! ### withObuf -/

@[simp] theorem State.withObuf_resp (m : Memory) : (s.withObuf m).resp = s.resp := rfl
@[simp] theorem State.withObuf_xstate (m : Memory) : (s.withObuf m).xstate = s.xstate := rfl
@[simp] theorem State.withObuf_berr (m : Memory) : (s.withObuf m).berr = s.berr := rfl
@[simp] theorem State.withObuf_lseen (m : Memory) : (s.withObuf m).lseen = s.lseen := rfl
@[simp] theorem State.withObuf_cwrem (m : Memory) : (s.withObuf m).cwrem = s.cwrem := rfl
@[simp] theorem State.withObuf_wptr (m : Memory) : (s.withObuf m).wptr = s.wptr := rfl
@[simp] theorem State.withObuf_ocnt (m : Memory) : (s.withObuf m).ocnt = s.ocnt := rfl
@[simp] theorem State.withObuf_clen (m : Memory) : (s.withObuf m).clen = s.clen := rfl
@[simp] theorem State.withObuf_cbits (m : Memory) : (s.withObuf m).cbits = s.cbits := rfl
@[simp] theorem State.withObuf_wlen (m : Memory) : (s.withObuf m).wlen = s.wlen := rfl
@[simp] theorem State.withObuf_wbits (m : Memory) : (s.withObuf m).wbits = s.wbits := rfl
@[simp] theorem State.withObuf_dclass (m : Memory) : (s.withObuf m).dclass = s.dclass := rfl
@[simp] theorem State.withObuf_dopf (m : Memory) : (s.withObuf m).dopf = s.dopf := rfl
@[simp] theorem State.withObuf_dsyn (m : Memory) : (s.withObuf m).dsyn = s.dsyn := rfl
@[simp] theorem State.withObuf_dcpos (m : Memory) : (s.withObuf m).dcpos = s.dcpos := rfl
@[simp] theorem State.withObuf_ddata (m : Memory) : (s.withObuf m).ddata = s.ddata := rfl
@[simp] theorem State.withObuf_obuf (m : Memory) : (s.withObuf m).obuf = m := rfl
@[simp] theorem State.withObuf_inflight (m : Memory) : (s.withObuf m).inflight = s.inflight := rfl
@[simp] theorem State.withObuf_done (m : Memory) : (s.withObuf m).done = s.done := rfl
@[simp] theorem State.withObuf_rdData (m : Memory) : (s.withObuf m).rdData = s.rdData := rfl
@[simp] theorem State.withObuf_host (m : Memory) : (s.withObuf m).host = s.host := rfl
@[simp] theorem State.withObuf_draws (m : Memory) : (s.withObuf m).draws = s.draws := rfl

/-! ### block -/

@[simp] theorem State.block_resp : s.block.resp = s.resp := rfl
@[simp] theorem State.block_xstate : s.block.xstate = s.xstate := rfl
@[simp] theorem State.block_berr : s.block.berr = s.berr := rfl
@[simp] theorem State.block_lseen : s.block.lseen = s.lseen := rfl
@[simp] theorem State.block_cwrem : s.block.cwrem = s.cwrem := rfl
@[simp] theorem State.block_wptr : s.block.wptr = s.wptr := rfl
@[simp] theorem State.block_ocnt : s.block.ocnt = s.ocnt := rfl
@[simp] theorem State.block_clen : s.block.clen = s.clen := rfl
@[simp] theorem State.block_cbits : s.block.cbits = s.cbits := rfl
@[simp] theorem State.block_wlen : s.block.wlen = s.wlen := rfl
@[simp] theorem State.block_wbits : s.block.wbits = s.wbits := rfl
@[simp] theorem State.block_dclass : s.block.dclass = s.dclass := rfl
@[simp] theorem State.block_dopf : s.block.dopf = s.dopf := rfl
@[simp] theorem State.block_dsyn : s.block.dsyn = s.dsyn := rfl
@[simp] theorem State.block_dcpos : s.block.dcpos = s.dcpos := rfl
@[simp] theorem State.block_ddata : s.block.ddata = s.ddata := rfl
@[simp] theorem State.block_obuf : s.block.obuf = s.obuf := rfl
@[simp] theorem State.block_inflight : s.block.inflight = none := rfl
@[simp] theorem State.block_done : s.block.done = false := rfl
@[simp] theorem State.block_rdData : s.block.rdData = 0 := rfl
@[simp] theorem State.block_host : s.block.host = [] := rfl
@[simp] theorem State.block_draws : s.block.draws = 0 := rfl

/-! ### withDone -/

@[simp] theorem State.withDone_resp (b : Bool) : (s.withDone b).resp = s.resp := rfl
@[simp] theorem State.withDone_xstate (b : Bool) : (s.withDone b).xstate = s.xstate := rfl
@[simp] theorem State.withDone_berr (b : Bool) : (s.withDone b).berr = s.berr := rfl
@[simp] theorem State.withDone_lseen (b : Bool) : (s.withDone b).lseen = s.lseen := rfl
@[simp] theorem State.withDone_cwrem (b : Bool) : (s.withDone b).cwrem = s.cwrem := rfl
@[simp] theorem State.withDone_wptr (b : Bool) : (s.withDone b).wptr = s.wptr := rfl
@[simp] theorem State.withDone_ocnt (b : Bool) : (s.withDone b).ocnt = s.ocnt := rfl
@[simp] theorem State.withDone_clen (b : Bool) : (s.withDone b).clen = s.clen := rfl
@[simp] theorem State.withDone_cbits (b : Bool) : (s.withDone b).cbits = s.cbits := rfl
@[simp] theorem State.withDone_wlen (b : Bool) : (s.withDone b).wlen = s.wlen := rfl
@[simp] theorem State.withDone_wbits (b : Bool) : (s.withDone b).wbits = s.wbits := rfl
@[simp] theorem State.withDone_dclass (b : Bool) : (s.withDone b).dclass = s.dclass := rfl
@[simp] theorem State.withDone_dopf (b : Bool) : (s.withDone b).dopf = s.dopf := rfl
@[simp] theorem State.withDone_dsyn (b : Bool) : (s.withDone b).dsyn = s.dsyn := rfl
@[simp] theorem State.withDone_dcpos (b : Bool) : (s.withDone b).dcpos = s.dcpos := rfl
@[simp] theorem State.withDone_ddata (b : Bool) : (s.withDone b).ddata = s.ddata := rfl
@[simp] theorem State.withDone_obuf (b : Bool) : (s.withDone b).obuf = s.obuf := rfl
@[simp] theorem State.withDone_inflight (b : Bool) : (s.withDone b).inflight = s.inflight := rfl
@[simp] theorem State.withDone_done (b : Bool) : (s.withDone b).done = b := rfl
@[simp] theorem State.withDone_rdData (b : Bool) : (s.withDone b).rdData = s.rdData := rfl
@[simp] theorem State.withDone_host (b : Bool) : (s.withDone b).host = s.host := rfl
@[simp] theorem State.withDone_draws (b : Bool) : (s.withDone b).draws = s.draws := rfl

/-! ### withInflight -/

@[simp] theorem State.withInflight_resp (f : Option Inflight) : (s.withInflight f).resp = s.resp := rfl
@[simp] theorem State.withInflight_xstate (f : Option Inflight) : (s.withInflight f).xstate = s.xstate := rfl
@[simp] theorem State.withInflight_berr (f : Option Inflight) : (s.withInflight f).berr = s.berr := rfl
@[simp] theorem State.withInflight_lseen (f : Option Inflight) : (s.withInflight f).lseen = s.lseen := rfl
@[simp] theorem State.withInflight_cwrem (f : Option Inflight) : (s.withInflight f).cwrem = s.cwrem := rfl
@[simp] theorem State.withInflight_wptr (f : Option Inflight) : (s.withInflight f).wptr = s.wptr := rfl
@[simp] theorem State.withInflight_ocnt (f : Option Inflight) : (s.withInflight f).ocnt = s.ocnt := rfl
@[simp] theorem State.withInflight_clen (f : Option Inflight) : (s.withInflight f).clen = s.clen := rfl
@[simp] theorem State.withInflight_cbits (f : Option Inflight) : (s.withInflight f).cbits = s.cbits := rfl
@[simp] theorem State.withInflight_wlen (f : Option Inflight) : (s.withInflight f).wlen = s.wlen := rfl
@[simp] theorem State.withInflight_wbits (f : Option Inflight) : (s.withInflight f).wbits = s.wbits := rfl
@[simp] theorem State.withInflight_dclass (f : Option Inflight) : (s.withInflight f).dclass = s.dclass := rfl
@[simp] theorem State.withInflight_dopf (f : Option Inflight) : (s.withInflight f).dopf = s.dopf := rfl
@[simp] theorem State.withInflight_dsyn (f : Option Inflight) : (s.withInflight f).dsyn = s.dsyn := rfl
@[simp] theorem State.withInflight_dcpos (f : Option Inflight) : (s.withInflight f).dcpos = s.dcpos := rfl
@[simp] theorem State.withInflight_ddata (f : Option Inflight) : (s.withInflight f).ddata = s.ddata := rfl
@[simp] theorem State.withInflight_obuf (f : Option Inflight) : (s.withInflight f).obuf = s.obuf := rfl
@[simp] theorem State.withInflight_inflight (f : Option Inflight) : (s.withInflight f).inflight = f := rfl
@[simp] theorem State.withInflight_done (f : Option Inflight) : (s.withInflight f).done = s.done := rfl
@[simp] theorem State.withInflight_rdData (f : Option Inflight) : (s.withInflight f).rdData = s.rdData := rfl
@[simp] theorem State.withInflight_host (f : Option Inflight) : (s.withInflight f).host = s.host := rfl
@[simp] theorem State.withInflight_draws (f : Option Inflight) : (s.withInflight f).draws = s.draws := rfl

/-! ### withHost -/

@[simp] theorem State.withHost_resp (es : List HostEvent) : (s.withHost es).resp = s.resp := rfl
@[simp] theorem State.withHost_xstate (es : List HostEvent) : (s.withHost es).xstate = s.xstate := rfl
@[simp] theorem State.withHost_berr (es : List HostEvent) : (s.withHost es).berr = s.berr := rfl
@[simp] theorem State.withHost_lseen (es : List HostEvent) : (s.withHost es).lseen = s.lseen := rfl
@[simp] theorem State.withHost_cwrem (es : List HostEvent) : (s.withHost es).cwrem = s.cwrem := rfl
@[simp] theorem State.withHost_wptr (es : List HostEvent) : (s.withHost es).wptr = s.wptr := rfl
@[simp] theorem State.withHost_ocnt (es : List HostEvent) : (s.withHost es).ocnt = s.ocnt := rfl
@[simp] theorem State.withHost_clen (es : List HostEvent) : (s.withHost es).clen = s.clen := rfl
@[simp] theorem State.withHost_cbits (es : List HostEvent) : (s.withHost es).cbits = s.cbits := rfl
@[simp] theorem State.withHost_wlen (es : List HostEvent) : (s.withHost es).wlen = s.wlen := rfl
@[simp] theorem State.withHost_wbits (es : List HostEvent) : (s.withHost es).wbits = s.wbits := rfl
@[simp] theorem State.withHost_dclass (es : List HostEvent) : (s.withHost es).dclass = s.dclass := rfl
@[simp] theorem State.withHost_dopf (es : List HostEvent) : (s.withHost es).dopf = s.dopf := rfl
@[simp] theorem State.withHost_dsyn (es : List HostEvent) : (s.withHost es).dsyn = s.dsyn := rfl
@[simp] theorem State.withHost_dcpos (es : List HostEvent) : (s.withHost es).dcpos = s.dcpos := rfl
@[simp] theorem State.withHost_ddata (es : List HostEvent) : (s.withHost es).ddata = s.ddata := rfl
@[simp] theorem State.withHost_obuf (es : List HostEvent) : (s.withHost es).obuf = s.obuf := rfl
@[simp] theorem State.withHost_inflight (es : List HostEvent) : (s.withHost es).inflight = s.inflight := rfl
@[simp] theorem State.withHost_done (es : List HostEvent) : (s.withHost es).done = s.done := rfl
@[simp] theorem State.withHost_rdData (es : List HostEvent) : (s.withHost es).rdData = s.rdData := rfl
@[simp] theorem State.withHost_host (es : List HostEvent) : (s.withHost es).host = es := rfl
@[simp] theorem State.withHost_draws (es : List HostEvent) : (s.withHost es).draws = s.draws := rfl

/-! ### withRead -/

@[simp] theorem State.withRead_resp (w : Word) : (s.withRead w).resp = s.resp := rfl
@[simp] theorem State.withRead_xstate (w : Word) : (s.withRead w).xstate = s.xstate := rfl
@[simp] theorem State.withRead_berr (w : Word) : (s.withRead w).berr = s.berr := rfl
@[simp] theorem State.withRead_lseen (w : Word) : (s.withRead w).lseen = s.lseen := rfl
@[simp] theorem State.withRead_cwrem (w : Word) : (s.withRead w).cwrem = s.cwrem := rfl
@[simp] theorem State.withRead_wptr (w : Word) : (s.withRead w).wptr = s.wptr := rfl
@[simp] theorem State.withRead_ocnt (w : Word) : (s.withRead w).ocnt = s.ocnt := rfl
@[simp] theorem State.withRead_clen (w : Word) : (s.withRead w).clen = s.clen := rfl
@[simp] theorem State.withRead_cbits (w : Word) : (s.withRead w).cbits = s.cbits := rfl
@[simp] theorem State.withRead_wlen (w : Word) : (s.withRead w).wlen = s.wlen := rfl
@[simp] theorem State.withRead_wbits (w : Word) : (s.withRead w).wbits = s.wbits := rfl
@[simp] theorem State.withRead_dclass (w : Word) : (s.withRead w).dclass = s.dclass := rfl
@[simp] theorem State.withRead_dopf (w : Word) : (s.withRead w).dopf = s.dopf := rfl
@[simp] theorem State.withRead_dsyn (w : Word) : (s.withRead w).dsyn = s.dsyn := rfl
@[simp] theorem State.withRead_dcpos (w : Word) : (s.withRead w).dcpos = s.dcpos := rfl
@[simp] theorem State.withRead_ddata (w : Word) : (s.withRead w).ddata = s.ddata := rfl
@[simp] theorem State.withRead_obuf (w : Word) : (s.withRead w).obuf = s.obuf := rfl
@[simp] theorem State.withRead_inflight (w : Word) : (s.withRead w).inflight = s.inflight := rfl
@[simp] theorem State.withRead_done (w : Word) : (s.withRead w).done = s.done := rfl
@[simp] theorem State.withRead_rdData (w : Word) : (s.withRead w).rdData = w := rfl
@[simp] theorem State.withRead_host (w : Word) : (s.withRead w).host = s.host := rfl
@[simp] theorem State.withRead_draws (w : Word) : (s.withRead w).draws = s.draws + 1 := rfl

/-! ### The block's registers do not see the ports and the model's own fields -/

@[simp] theorem State.block_withDone (b : Bool) : (s.withDone b).block = s.block := rfl
@[simp] theorem State.block_withInflight (f : Option Inflight) : (s.withInflight f).block = s.block := rfl
@[simp] theorem State.block_withHost (es : List HostEvent) : (s.withHost es).block = s.block := rfl
@[simp] theorem State.block_withRead (w : Word) : (s.withRead w).block = s.block := rfl
@[simp] theorem State.block_block : s.block.block = s.block := rfl

end Sys2Proof.Machine
end

