-- ==== Sys2Proof/Laws/Accumulator.lean ====
section
/-!
SUPPORT. What `Accumulate` gives in numbers, and everything the accumulating end of a push can do.
-/

namespace Sys2Proof.Machine

@[simp] theorem assembleBytes_length (T : Nat) (c : BitVec 33) : (assembleBytes T c).length = T / 8 := by
  simp [assembleBytes]

@[simp] theorem accumulate_bytes (len : BitVec 3) (bits : BitVec 7) (d : Data) (last : Bool) :
    (accumulate len bits d last).bytes = assembleBytes (len.toNat + 26) (combine len bits d) := by
  cases last <;> rfl

/-- Three bytes, or four where the leftover has 6 bits or more. -/
theorem accumulate_bytes_length (len : BitVec 3) (bits : BitVec 7) (d : Data) (last : Bool) :
    (accumulate len bits d last).bytes.length = (len.toNat + 26) / 8 := by simp

/-- At most all of the assembled bytes are output. -/
theorem accumulate_adv_le (len : BitVec 3) (bits : BitVec 7) (d : Data) (last : Bool) :
    (accumulate len bits d last).adv ≤ (len.toNat + 26) / 8 := by
  cases last
  · exact le_refl _
  · simpa [accumulate] using List.findIdx_le_length (p := (· == 0)) (xs := assembleBytes (len.toNat + 26) (combine len bits d))

/-- Every assembled byte of a non-final codeword is output. -/
@[simp] theorem accumulate_adv_nonfinal (len : BitVec 3) (bits : BitVec 7) (d : Data) :
    (accumulate len bits d false).adv = (len.toNat + 26) / 8 := rfl

/-- The length of the new leftover of a non-final codeword. -/
@[simp] theorem accumulate_len_nonfinal (len : BitVec 3) (bits : BitVec 7) (d : Data) :
    (accumulate len bits d false).len.toNat = (len.toNat + 26) % 8 := by
  simp only [accumulate, Bool.false_eq_true, if_false, BitVec.toNat_ofNat]
  omega

@[simp] theorem accumulate_len_final (len : BitVec 3) (bits : BitVec 7) (d : Data) :
    (accumulate len bits d true).len = 0 := rfl

@[simp] theorem accumulate_bits_final (len : BitVec 3) (bits : BitVec 7) (d : Data) :
    (accumulate len bits d true).bits = 0 := rfl

/-- The new leftover bits fit their length. -/
theorem accumulate_bits_lt (len : BitVec 3) (bits : BitVec 7) (d : Data) (last : Bool) :
    (accumulate len bits d last).bits.toNat < 2 ^ (accumulate len bits d last).len.toNat := by
  cases last
  · rw [accumulate_len_nonfinal]
    simp only [accumulate, Bool.false_eq_true, if_false, BitVec.toNat_setWidth]
    exact lt_of_le_of_lt (Nat.mod_le _ _) (BitVec.isLt _)
  · simp

/-- Bytes taken in, bytes and leftover given out: nothing is made. -/
theorem accumulate_budget (len : BitVec 3) (bits : BitVec 7) (d : Data) (last : Bool) :
    8 * (accumulate len bits d last).adv + (accumulate len bits d last).len.toNat ≤ len.toNat + 26 := by
  have h := accumulate_adv_le len bits d last
  cases last
  · rw [accumulate_len_nonfinal, accumulate_adv_nonfinal]; omega
  · have e : (accumulate len bits d true).len.toNat = 0 := rfl
    rw [e]; omega

/-- Everything an accumulating push can do: the bytes are written at WPTR and the pointer and carry move, or the bytes do not
fit and the push stops. -/
theorem pushData_cases (d : Data) (last : Bool) (s : State) :
    (s.wptr.toNat + (s.wlen.toNat + 26) / 8 ≤ obufBytes ∧
      pushData d last s = .next (((s.withObuf (s.obuf.setAll s.wptr.toNat (accumulate s.wlen s.wbits d last).bytes)).advance
        (accumulate s.wlen s.wbits d last)).withResp .ok)) ∨
    (obufBytes < s.wptr.toNat + (s.wlen.toNat + 26) / 8 ∧
      pushData d last s = .fault (.obufRange (s.wptr.toNat + (s.wlen.toNat + 26) / 8 - 1))) := by
  rcases obufStore_cases s.wptr.toNat (accumulate s.wlen s.wbits d last).bytes s with ⟨h, e⟩ | ⟨h, e⟩ <;>
    rw [accumulate_bytes_length] at h
  · exact .inl ⟨h, by simp only [pushData, e, respond]⟩
  · exact .inr ⟨h, by simp only [pushData, e, accumulate_bytes_length]⟩

/-- Where the moved pointer lands, when the written bytes fit. -/
theorem wptr_advance {s : State} {d : Data} {last : Bool} (h : s.wptr.toNat + (s.wlen.toNat + 26) / 8 ≤ obufBytes) :
    (s.wptr + BitVec.ofNat 9 (accumulate s.wlen s.wbits d last).adv).toNat =
      s.wptr.toNat + (accumulate s.wlen s.wbits d last).adv := by
  have ha := accumulate_adv_le s.wlen s.wbits d last
  have hb : obufBytes = 416 := rfl
  rw [BitVec.toNat_add, BitVec.toNat_ofNat, Nat.mod_eq_of_lt (by omega : _ < 2 ^ 9), Nat.mod_eq_of_lt (by omega)]

/-- Everything CWPUSH can do. -/
theorem execCwpush_cases (last : Bool) (w : Word) (s : State) :
    ((s.xstate ≠ .inblk ∨ s.cwrem = 0 ∨ (last = true ∧ s.cwrem ≠ 1)) ∧
      execCwpush last w s = .next (s.withResp .seq)) ∨
    (s.xstate = .inblk ∧ s.cwrem ≠ 0 ∧ (last = true → s.cwrem = 1) ∧
      (((decodeCodeword w).cls = .uncorr ∧ execCwpush last w s =
          .next ((((s.countCodeword last).withDecoded (decodeCodeword w)).markBerr).withResp .uncorr)) ∨
       ((decodeCodeword w).cls ≠ .uncorr ∧ s.berr = true ∧ execCwpush last w s =
          .next (((s.countCodeword last).withDecoded (decodeCodeword w)).withResp .ok)) ∨
       ((decodeCodeword w).cls ≠ .uncorr ∧ s.berr = false ∧ execCwpush last w s =
          pushData (decodeCodeword w).data last ((s.countCodeword last).withDecoded (decodeCodeword w))))) := by
  unfold execCwpush
  by_cases h1 : s.xstate ≠ .inblk ∨ s.cwrem = 0
  · exact .inl ⟨by tauto, by rw [if_pos h1]; rfl⟩
  rw [if_neg h1]
  by_cases h2 : last = true ∧ s.cwrem ≠ 1
  · exact .inl ⟨by tauto, by rw [if_pos h2]; rfl⟩
  rw [if_neg h2]
  refine .inr ⟨by tauto, by tauto, by tauto, ?_⟩
  by_cases h3 : (decodeCodeword w).cls = .uncorr
  · exact .inl ⟨h3, if_pos h3⟩
  · by_cases h4 : s.berr = true
    · exact .inr (.inl ⟨h3, h4, (if_neg h3).trans (if_pos h4)⟩)
    · exact .inr (.inr ⟨h3, by simpa using h4, (if_neg h3).trans (if_neg h4)⟩)

/-- CWPUSH takes one off a CWREM that is not 0. -/
theorem cwrem_pred {s : State} (h : s.cwrem ≠ 0) : (s.cwrem - 1).toNat + 1 = s.cwrem.toNat := by
  have : s.cwrem.toNat ≠ 0 := fun e => h (BitVec.eq_of_toNat_eq (by simpa using e))
  have := s.cwrem.isLt
  have e : (1 : BitVec 8).toNat = 1 := rfl
  rw [BitVec.toNat_sub, e]
  omega

end Sys2Proof.Machine
end

