-- ==== Sys2Proof/Laws/Codeword.lean ====
section
/-!
SUPPORT. The decode functions are linear over exclusive-or, and what flipping one position does to each of them.
-/

namespace Sys2Proof.Machine

@[simp] theorem xorAll_nil : xorAll [] = false := rfl

@[simp] theorem xorAll_cons (b : Bool) (bs : List Bool) : xorAll (b :: bs) = (b ^^ xorAll bs) := rfl

/-- The exclusive-or over a list is additive in its entries. -/
theorem xorAll_map_xor (l : List Nat) (f g : Nat → Bool) :
    xorAll (l.map fun k => f k ^^ g k) = (xorAll (l.map f) ^^ xorAll (l.map g)) := by
  induction l with
  | nil => rfl
  | cons k l ih =>
    simp only [List.map_cons, xorAll_cons, ih]
    cases f k <;> cases g k <;> simp

@[simp] theorem codeBit_xor (v w : Word) (k : Nat) : codeBit (v ^^^ w) k = (codeBit v k ^^ codeBit w k) := by
  simp [codeBit]

theorem groupParity_xor (v w : Word) (p : Nat) : groupParity (v ^^^ w) p = (groupParity v p ^^ groupParity w p) := by
  simp only [groupParity, ← xorAll_map_xor, ← codeBit_xor]

theorem overallParity_xor (v w : Word) : overallParity (v ^^^ w) = (overallParity v ^^ overallParity w) := by
  simp only [overallParity, ← xorAll_map_xor, ← codeBit_xor]

/-- The five failing bits, weighted. -/
theorem syndrome_eq (w : Word) :
    syndrome w = BitVec.ofNat 5 ((groupParity w 1).toNat + 2 * (groupParity w 2).toNat + 4 * (groupParity w 4).toNat +
      8 * (groupParity w 8).toNat + 16 * (groupParity w 16).toNat) := by
  simp only [syndrome, groupParities, List.map_cons, List.map_nil, List.sum_cons, List.sum_nil]
  congr 1
  omega

theorem syndrome_xor (v w : Word) : syndrome (v ^^^ w) = syndrome v ^^^ syndrome w := by
  simp only [syndrome_eq, groupParity_xor]
  generalize groupParity v 1 = a1
  generalize groupParity v 2 = a2
  generalize groupParity v 4 = a3
  generalize groupParity v 8 = a4
  generalize groupParity v 16 = a5
  generalize groupParity w 1 = b1
  generalize groupParity w 2 = b2
  generalize groupParity w 4 = b3
  generalize groupParity w 8 = b4
  generalize groupParity w 16 = b5
  revert a1 a2 a3 a4 a5 b1 b2 b3 b4 b5
  decide

@[simp] theorem flipPosition_flipPosition (w : Word) (k : Nat) : flipPosition (flipPosition w k) k = w := by
  simp [flipPosition]

/-- Flips at two positions commute. -/
theorem flipPosition_comm (w : Word) (a b : Nat) :
    flipPosition (flipPosition w a) b = flipPosition (flipPosition w b) a := by
  simp only [flipPosition, BitVec.xor_assoc, BitVec.xor_comm (1#32 <<< (32 - a))]

/-- A flip inverts its own position and no other. -/
theorem codeBit_flipPosition (w : Word) {k j : Nat} (hk : 1 ≤ k) (hk' : k ≤ 32) (hj : 1 ≤ j) (hj' : j ≤ 32) :
    codeBit (flipPosition w k) j = (codeBit w j ^^ decide (j = k)) := by
  have unit : ∀ k < 33, ∀ j < 33, 1 ≤ k → 1 ≤ j → codeBit (1#32 <<< (32 - k)) j = decide (j = k) := by
    decide +kernel
  rw [flipPosition, codeBit_xor, unit k (by omega) j (by omega) hk hj]

/-- A flip at any position inverts the overall parity. -/
theorem overallParity_flipPosition (w : Word) {k : Nat} (hk : 1 ≤ k) (hk' : k ≤ 32) :
    overallParity (flipPosition w k) = !overallParity w := by
  have unit : ∀ k < 33, 1 ≤ k → overallParity (1#32 <<< (32 - k)) = true := by decide +kernel
  rw [flipPosition, overallParity_xor, unit k (by omega) hk]
  simp

/-- A flip at a position of 1..31 moves the syndrome by that position; position 32 is in no group. -/
theorem syndrome_flipPosition (w : Word) {k : Nat} (hk : 1 ≤ k) (hk' : k ≤ 32) :
    syndrome (flipPosition w k) = syndrome w ^^^ BitVec.ofNat 5 k := by
  have unit : ∀ k < 33, 1 ≤ k → syndrome (1#32 <<< (32 - k)) = BitVec.ofNat 5 k := by decide +kernel
  rw [flipPosition, syndrome_xor, unit k (by omega) hk]

end Sys2Proof.Machine
end

