-- ==== Sys2Proof/Laws/Decode.lean ====
section
/-!
SUPPORT. Everything the decoder can answer.
-/

namespace Sys2Proof

@[simp] theorem decodeCmd_nop (a : Word) : decodeCmd ⟨0x00, a⟩ = .ok .nop := by
  simp [decodeCmd, Command.rsv, Command.flagL, Command.op]
@[simp] theorem decodeCmd_xrst (a : Word) : decodeCmd ⟨0x01, a⟩ = .ok .xrst := by
  simp [decodeCmd, Command.rsv, Command.flagL, Command.op]
@[simp] theorem decodeCmd_bbegin (a : Word) : decodeCmd ⟨0x02, a⟩ = .ok (.bbegin (a.extractLsb' 0 16)) := by
  simp [decodeCmd, Command.rsv, Command.flagL, Command.op, Command.len]
@[simp] theorem decodeCmd_cwpush (a : Word) : decodeCmd ⟨0x03, a⟩ = .ok (.cwpush false a) := by
  simp [decodeCmd, Command.rsv, Command.flagL, Command.op]
@[simp] theorem decodeCmd_cwpushL (a : Word) : decodeCmd ⟨0x13, a⟩ = .ok (.cwpush true a) := by
  simp [decodeCmd, Command.rsv, Command.flagL, Command.op]
@[simp] theorem decodeCmd_bcommit (a : Word) : decodeCmd ⟨0x04, a⟩ = .ok .bcommit := by
  simp [decodeCmd, Command.rsv, Command.flagL, Command.op]
@[simp] theorem decodeCmd_babort (a : Word) : decodeCmd ⟨0x05, a⟩ = .ok .babort := by
  simp [decodeCmd, Command.rsv, Command.flagL, Command.op]
@[simp] theorem decodeCmd_cwdec (a : Word) : decodeCmd ⟨0x06, a⟩ = .ok (.cwdec a) := by
  simp [decodeCmd, Command.rsv, Command.flagL, Command.op]

/-- A byte outside the 8 legal ones fails one of the three checks. -/
theorem illegal_byte (b : Byte) (h : legalBytes.contains b = false) :
    b.extractLsb' 5 3 ≠ 0 ∨ (b.getLsbD 4 = true ∧ b.extractLsb' 0 4 ≠ 3) ∨
      (b.extractLsb' 0 4 ≠ 0 ∧ b.extractLsb' 0 4 ≠ 1 ∧ b.extractLsb' 0 4 ≠ 2 ∧ b.extractLsb' 0 4 ≠ 3 ∧
        b.extractLsb' 0 4 ≠ 4 ∧ b.extractLsb' 0 4 ≠ 5 ∧ b.extractLsb' 0 4 ≠ 6) := by
  revert b
  decide +kernel

/-- Every command is one of the 8 legal bytes, and decodes to its row's command, or is refused. -/
theorem decodeCmd_cases (c : Command) :
    (c.cmd = 0x00 ∧ decodeCmd c = .ok .nop) ∨ (c.cmd = 0x01 ∧ decodeCmd c = .ok .xrst) ∨
    (c.cmd = 0x02 ∧ decodeCmd c = .ok (.bbegin (c.arg.extractLsb' 0 16))) ∨
    (c.cmd = 0x03 ∧ decodeCmd c = .ok (.cwpush false c.arg)) ∨ (c.cmd = 0x13 ∧ decodeCmd c = .ok (.cwpush true c.arg)) ∨
    (c.cmd = 0x04 ∧ decodeCmd c = .ok .bcommit) ∨ (c.cmd = 0x05 ∧ decodeCmd c = .ok .babort) ∨
    (c.cmd = 0x06 ∧ decodeCmd c = .ok (.cwdec c.arg)) ∨
    (c.wellFormed = false ∧ ∃ e, decodeCmd c = .error e) := by
  obtain ⟨b, a⟩ := c
  cases h : legalBytes.contains b with
  | true =>
    simp only [legalBytes, List.contains_iff_mem, List.mem_cons, List.not_mem_nil, or_false] at h
    rcases h with rfl | rfl | rfl | rfl | rfl | rfl | rfl | rfl <;> simp [decodeCmd, Command.rsv, Command.flagL, Command.op, Command.len]
  | false =>
    iterate 8 right
    refine ⟨h, ?_⟩
    have k : (⟨b, a⟩ : Command).rsv ≠ 0 ∨ ((⟨b, a⟩ : Command).flagL = true ∧ (⟨b, a⟩ : Command).op ≠ 3) ∨
        ((⟨b, a⟩ : Command).op ≠ 0 ∧ (⟨b, a⟩ : Command).op ≠ 1 ∧ (⟨b, a⟩ : Command).op ≠ 2 ∧ (⟨b, a⟩ : Command).op ≠ 3 ∧
          (⟨b, a⟩ : Command).op ≠ 4 ∧ (⟨b, a⟩ : Command).op ≠ 5 ∧ (⟨b, a⟩ : Command).op ≠ 6) := illegal_byte b h
    unfold decodeCmd
    split
    · exact ⟨_, rfl⟩
    · split
      · exact ⟨_, rfl⟩
      · obtain h1 | h2 | ⟨g0, g1, g2, g3, g4, g5, g6⟩ := k
        · contradiction
        · contradiction
        rw [if_neg g0, if_neg g1, if_neg g2, if_neg g3, if_neg g4, if_neg g5, if_neg g6]
        exact ⟨_, rfl⟩

end Sys2Proof
end

