-- ==== Sys2Proof/Laws/Exec.lean ====
section
/-!
SUPPORT. What the sequencing commands and a step can do, and that a command sees and writes the block's registers alone.
-/

namespace Sys2Proof.Machine

/-- The block's registers of `b` with the ports and the model's own fields of `s`. -/
def State.withBlock (b s : State) : State :=
  { b with inflight := s.inflight, done := s.done, rdData := s.rdData, host := s.host, draws := s.draws }

@[simp] theorem State.withBlock_block (s : State) : State.withBlock s.block s = s := rfl

@[simp] theorem State.block_withBlock (b s : State) : (State.withBlock b s).block = b.block := rfl

theorem Result.map_ite (f : State → State) (p : Prop) [Decidable p] (x y : Result) :
    Result.map f (if p then x else y) = if p then Result.map f x else Result.map f y := by
  split <;> rfl

/-- Everything BBEGIN can do. -/
theorem execBbegin_cases (len : BitVec 16) (s : State) :
    (s.xstate ≠ .ready ∧ execBbegin len s = .next (s.withResp .seq)) ∨
    (s.xstate = .ready ∧ (len.toNat % 4 ≠ 0 ∨ maxPayload < len.toNat) ∧
      execBbegin len s = .next (s.withResp .malformed)) ∨
    (s.xstate = .ready ∧ len.toNat % 4 = 0 ∧ len.toNat ≤ maxPayload ∧
      execBbegin len s = .next ((s.openBlock len.toNat).withResp .ok)) := by
  unfold execBbegin
  by_cases h1 : s.xstate ≠ .ready
  · exact .inl ⟨h1, by rw [if_pos h1]; rfl⟩
  rw [if_neg h1]
  by_cases h2 : len.toNat % 4 ≠ 0 ∨ len.toNat > maxPayload
  · exact .inr (.inl ⟨by tauto, h2, by rw [if_pos h2]; rfl⟩)
  · exact .inr (.inr ⟨by tauto, by omega, by omega, by rw [if_neg h2]; rfl⟩)

/-- Everything BCOMMIT can do. -/
theorem execBcommit_cases (s : State) :
    ((s.xstate ≠ .inblk ∨ s.cwrem ≠ 0) ∧ execBcommit s = .next (s.withResp .seq)) ∨
    (s.xstate = .inblk ∧ s.cwrem = 0 ∧ s.berr = true ∧ execBcommit s = .next (s.dropBlock.withResp .uncorr)) ∨
    (s.xstate = .inblk ∧ s.cwrem = 0 ∧ s.berr = false ∧ execBcommit s = .next (s.commitBlock.withResp .ok)) := by
  unfold execBcommit
  by_cases h1 : s.xstate ≠ .inblk ∨ s.cwrem ≠ 0
  · exact .inl ⟨h1, by rw [if_pos h1]; rfl⟩
  rw [if_neg h1]
  by_cases h2 : s.berr = true
  · exact .inr (.inl ⟨by tauto, by tauto, h2, by rw [if_pos h2]; rfl⟩)
  · exact .inr (.inr ⟨by tauto, by tauto, by simpa using h2, by rw [if_neg h2]; rfl⟩)

/-- Everything BABORT can do. -/
theorem execBabort_cases (s : State) :
    (s.xstate ≠ .inblk ∧ execBabort s = .next (s.withResp .seq)) ∨
    (s.xstate = .inblk ∧ execBabort s = .next (s.dropBlock.withResp .ok)) := by
  unfold execBabort
  by_cases h1 : s.xstate ≠ .inblk
  · exact .inl ⟨h1, by rw [if_pos h1]; rfl⟩
  · exact .inr ⟨by tauto, by rw [if_neg h1]; rfl⟩

/-- Everything a command can do, where it answers a next state. -/
theorem exec_next_cases {i : Instr} {s t : State} (h : exec i s = .next t) :
    (i = .nop ∧ t = s) ∨ (i = .xrst ∧ t = s.clearRegisters.withResp .ok) ∨
    (∃ w, i = .cwdec w ∧ t = (s.withDecoded (decodeCodeword w)).withResp .ok) ∨
    (∃ len, i = .bbegin len ∧
      ((s.xstate ≠ .ready ∧ t = s.withResp .seq) ∨
       (s.xstate = .ready ∧ (len.toNat % 4 ≠ 0 ∨ maxPayload < len.toNat) ∧ t = s.withResp .malformed) ∨
       (s.xstate = .ready ∧ len.toNat % 4 = 0 ∧ len.toNat ≤ maxPayload ∧ t = (s.openBlock len.toNat).withResp .ok))) ∨
    (i = .babort ∧ ((s.xstate ≠ .inblk ∧ t = s.withResp .seq) ∨ (s.xstate = .inblk ∧ t = s.dropBlock.withResp .ok))) ∨
    (i = .bcommit ∧
      (((s.xstate ≠ .inblk ∨ s.cwrem ≠ 0) ∧ t = s.withResp .seq) ∨
       (s.xstate = .inblk ∧ s.cwrem = 0 ∧ s.berr = true ∧ t = s.dropBlock.withResp .uncorr) ∨
       (s.xstate = .inblk ∧ s.cwrem = 0 ∧ s.berr = false ∧ t = s.commitBlock.withResp .ok))) ∨
    (∃ last w, i = .cwpush last w ∧
      (((s.xstate ≠ .inblk ∨ s.cwrem = 0 ∨ (last = true ∧ s.cwrem ≠ 1)) ∧ t = s.withResp .seq) ∨
       (s.xstate = .inblk ∧ s.cwrem ≠ 0 ∧ (last = true → s.cwrem = 1) ∧
        (((decodeCodeword w).cls = .uncorr ∧
            t = (((s.countCodeword last).withDecoded (decodeCodeword w)).markBerr).withResp .uncorr) ∨
         ((decodeCodeword w).cls ≠ .uncorr ∧ s.berr = true ∧
            t = ((s.countCodeword last).withDecoded (decodeCodeword w)).withResp .ok) ∨
         ((decodeCodeword w).cls ≠ .uncorr ∧ s.berr = false ∧ s.wptr.toNat + (s.wlen.toNat + 26) / 8 ≤ obufBytes ∧
            t = ((((s.countCodeword last).withDecoded (decodeCodeword w)).withObuf
                  (s.obuf.setAll s.wptr.toNat (accumulate s.wlen s.wbits (decodeCodeword w).data last).bytes)).advance
                  (accumulate s.wlen s.wbits (decodeCodeword w).data last)).withResp .ok))))) := by
  cases i with
  | nop => cases h; exact .inl ⟨rfl, rfl⟩
  | xrst => cases h; exact .inr (.inl ⟨rfl, rfl⟩)
  | cwdec w => cases h; exact .inr (.inr (.inl ⟨w, rfl, rfl⟩))
  | bbegin len =>
    refine .inr (.inr (.inr (.inl ⟨len, rfl, ?_⟩)))
    rcases execBbegin_cases len s with ⟨h1, e⟩ | ⟨h1, h', e⟩ | ⟨h1, h', h'', e⟩ <;> cases e.symm.trans h
    · exact .inl ⟨h1, rfl⟩
    · exact .inr (.inl ⟨h1, h', rfl⟩)
    · exact .inr (.inr ⟨h1, h', h'', rfl⟩)
  | babort =>
    refine .inr (.inr (.inr (.inr (.inl ⟨rfl, ?_⟩))))
    rcases execBabort_cases s with ⟨h1, e⟩ | ⟨h1, e⟩ <;> cases e.symm.trans h
    · exact .inl ⟨h1, rfl⟩
    · exact .inr ⟨h1, rfl⟩
  | bcommit =>
    refine .inr (.inr (.inr (.inr (.inr (.inl ⟨rfl, ?_⟩)))))
    rcases execBcommit_cases s with ⟨h1, e⟩ | ⟨h1, h', h'', e⟩ | ⟨h1, h', h'', e⟩ <;> cases e.symm.trans h
    · exact .inl ⟨h1, rfl⟩
    · exact .inr (.inl ⟨h1, h', h'', rfl⟩)
    · exact .inr (.inr ⟨h1, h', h'', rfl⟩)
  | cwpush last w =>
    refine .inr (.inr (.inr (.inr (.inr (.inr ⟨last, w, rfl, ?_⟩)))))
    rcases execCwpush_cases last w s with ⟨h1, e⟩ | ⟨h1, h2, h3, ⟨g, e⟩ | ⟨g, g', e⟩ | ⟨g, g', e⟩⟩ 
    · cases e.symm.trans h; exact .inl ⟨h1, rfl⟩
    · cases e.symm.trans h; exact .inr ⟨h1, h2, h3, .inl ⟨g, rfl⟩⟩
    · cases e.symm.trans h; exact .inr ⟨h1, h2, h3, .inr (.inl ⟨g, g', rfl⟩)⟩
    · rcases pushData_cases (decodeCodeword w).data last ((s.countCodeword last).withDecoded (decodeCodeword w)) with ⟨hh, e'⟩ | ⟨hh, e'⟩
      · cases (e.trans e').symm.trans h; exact .inr ⟨h1, h2, h3, .inr (.inr ⟨g, g', hh, rfl⟩)⟩
      · cases (e.trans e').symm.trans h

theorem pushData_withBlock (d : Data) (last : Bool) (b s : State) :
    pushData d last (State.withBlock b s) = Result.map (fun t => State.withBlock t s) (pushData d last b) := by
  rcases pushData_cases d last b with ⟨h, e⟩ | ⟨h, e⟩ <;>
    rcases pushData_cases d last (State.withBlock b s) with ⟨h', e'⟩ | ⟨h', e'⟩
  · rw [e, e']; rfl
  · exact absurd h' (not_lt.2 h)
  · exact absurd h (not_lt.2 h')
  · rw [e, e']; rfl

theorem exec_withBlock (i : Instr) (b s : State) :
    exec i (State.withBlock b s) = Result.map (fun t => State.withBlock t s) (exec i b) := by
  cases i with
  | nop => rfl
  | xrst => rfl
  | cwdec w => rfl
  | bbegin len => simp only [exec, execBbegin, Result.map_ite]; rfl
  | bcommit => simp only [exec, execBcommit, Result.map_ite]; rfl
  | babort => simp only [exec, execBabort, Result.map_ite]; rfl
  | cwpush last w =>
    have e : (((State.withBlock b s).countCodeword last).withDecoded (decodeCodeword w)) =
        State.withBlock ((b.countCodeword last).withDecoded (decodeCodeword w)) s := rfl
    simp only [exec, execCwpush, e, pushData_withBlock, Result.map_ite]
    rfl

/-- A command sees and writes the block's registers alone: it runs on them, and the rest of the state is put back. -/
theorem exec_eq_block (i : Instr) (s : State) :
    exec i s = Result.map (fun t => State.withBlock t s) (exec i s.block) := by
  conv_lhs => rw [← State.withBlock_block s]
  exact exec_withBlock i s.block s

/-- The same of a raw command, an illegal one included. -/
theorem performCommand_eq_block (c : Command) (s : State) :
    performCommand c s = Result.map (fun t => State.withBlock t s) (performCommand c s.block) := by
  unfold performCommand
  split
  · exact exec_eq_block _ s
  · rfl

/-- Every next state of a command has the ports and the model's own fields of the state before. -/
theorem exec_keeps_ports {i : Instr} {s t : State} (h : exec i s = .next t) :
    t.inflight = s.inflight ∧ t.done = s.done ∧ t.rdData = s.rdData ∧ t.host = s.host ∧ t.draws = s.draws := by
  rw [exec_eq_block] at h
  cases e : exec i s.block with
  | next u => rw [e] at h; cases h; exact ⟨rfl, rfl, rfl, rfl, rfl⟩
  | fault f => rw [e] at h; cases h
  | refused r => rw [e] at h; cases h

/-- Everything a step can do. -/
theorem step_cases (s : State) :
    (∃ f, s.inflight = some f ∧ step s = completeCommand f.command s) ∨
    (∃ c es, s.inflight = none ∧ s.host = .command c.cmd c.arg :: es ∧ step s = completeCommand c (s.withHost es)) ∨
    (∃ a es, s.inflight = none ∧ s.host = .read a :: es ∧
      step s = .next ((hostRead a (s.withHost es)).withDone false)) ∨
    (∃ a es, s.inflight = none ∧ s.host = .readDuring a :: es ∧
      step s = .next ((hostReadDuring (s.withHost es)).withDone false)) ∨
    (∃ es, s.inflight = none ∧ s.host = .reset :: es ∧ step s = .next (portReset (s.withHost es))) ∨
    (s.inflight = none ∧ s.host = [] ∧ step s = .next (s.withDone false)) := by
  unfold step transact
  cases hf : s.inflight with
  | some f => exact .inl ⟨f, rfl, rfl⟩
  | none =>
    cases hh : s.host with
    | nil => simp
    | cons e es =>
      cases e with
      | command cmd arg => exact .inr (.inl ⟨⟨cmd, arg⟩, es, rfl, rfl, rfl⟩)
      | read a => exact .inr (.inr (.inl ⟨a, es, rfl, rfl, rfl⟩))
      | readDuring a => exact .inr (.inr (.inr (.inl ⟨a, es, rfl, rfl, rfl⟩)))
      | reset => exact .inr (.inr (.inr (.inr (.inl ⟨es, rfl, rfl, rfl⟩))))

/-- A presented command is the next thing the block does. -/
theorem step_present (c : Command) (s : State) :
    step (s.present c) = Result.map (State.withDone true) (performCommand c (s.withInflight none)) := rfl

/-- A command completes exactly where it performs, with `done` raised. -/
theorem completeCommand_next {c : Command} {s t : State} (h : completeCommand c s = .next t) :
    ∃ u, performCommand c (s.withInflight none) = .next u ∧ t = u.withDone true := by
  unfold completeCommand at h
  cases e : performCommand c (s.withInflight none) with
  | next u => rw [e] at h; cases h; exact ⟨u, rfl, rfl⟩
  | fault f => rw [e] at h; cases h
  | refused r => rw [e] at h; cases h

end Sys2Proof.Machine
end

