-- ==== Sys2Proof/Laws/PerInstr.lean ====
section
/-!
SUPPORT. One lemma per command: what the encoder writes is a legal command (spec/30_encoding.md R74) with the `RSV` bits 0
(R71).
-/

namespace Sys2Proof.Laws.LegalEncoding

/-- The encoding of `i` has a legal byte, and its `RSV` field is 0. -/
def Statement (i : Instr) : Prop := (encode i).wellFormed = true ∧ (encode i).rsv = 0

theorem nop : Statement .nop := ⟨by decide, by decide⟩

theorem xrst : Statement .xrst := ⟨by decide, by decide⟩

theorem bbegin (len : BitVec 16) : Statement (.bbegin len) := ⟨rfl, by simp [encode, Command.rsv]⟩

theorem cwpush (last : Bool) (w : Word) : Statement (.cwpush last w) := by
  cases last <;> exact ⟨rfl, by simp [encode, Command.rsv]⟩

theorem bcommit : Statement .bcommit := ⟨by decide, by decide⟩

theorem babort : Statement .babort := ⟨by decide, by decide⟩

theorem cwdec (w : Word) : Statement (.cwdec w) := ⟨rfl, by simp [encode, Command.rsv]⟩

end Sys2Proof.Laws.LegalEncoding
end

