-- ==== Sys2Proof/Laws/Protocol.lean ====
section
/-!
SUPPORT. The small lemmas of command sequences: how a run splits, and what the pushes of a block and the commands of an attempt
unfold to.
-/

namespace Sys2Proof.Machine

@[simp] theorem execAll_nil (s : State) : execAll [] s = .next s := rfl

/-- A run whose first command answers `t` goes on from `t`. -/
theorem execAll_cons {i : Instr} {is : List Instr} {s t : State} (h : exec i s = .next t) :
    execAll (i :: is) s = execAll is t := by
  rw [execAll, h]

/-- A run whose first part answers `t` goes on from `t`. -/
theorem execAll_append {is js : List Instr} {s t : State} (h : execAll is s = .next t) :
    execAll (is ++ js) s = execAll js t := by
  induction is generalizing s with
  | nil => cases h; rfl
  | cons i is ih =>
    rw [List.cons_append]
    cases e : exec i s with
    | next u => rw [execAll_cons e] at h ⊢; exact ih h
    | fault f => rw [execAll, e] at h; cases h
    | refused r => rw [execAll, e] at h; cases h

@[simp] theorem pushCommands_nil (final : Bool) : pushCommands final [] = [] := rfl

@[simp] theorem pushCommands_singleton (final : Bool) (w : Word) : pushCommands final [w] = [.cwpush final w] := rfl

@[simp] theorem pushCommands_cons_cons (final : Bool) (v w : Word) (ws : List Word) :
    pushCommands final (v :: w :: ws) = .cwpush false v :: pushCommands final (w :: ws) := rfl

@[simp] theorem Attempt.commands_committed (final : Bool) (ws : List Word) :
    (Attempt.committed final ws).commands = wholeBlock final ws := rfl

@[simp] theorem Attempt.commands_aborted (final : Bool) (ws : List Word) (k : Nat) :
    (Attempt.aborted final ws k).commands = abortedBlock final ws k := rfl

end Sys2Proof.Machine
end

