-- ==== Sys2Proof/Laws/ReadSpace.lean ====
section
/-!
SUPPORT. The read map by address: the output words, the reserved words, and the lanes of an output word.
-/

namespace Sys2Proof.Machine

theorem byte_ne {a : Byte} {n : Nat} (h : n < a.toNat) : a ≠ BitVec.ofNat 8 n := by
  intro e
  have := congrArg BitVec.toNat e
  rw [BitVec.toNat_ofNat] at this
  have := Nat.mod_le n (2 ^ 8)
  omega

/-- An address of the output buffer reads its packed word. -/
theorem readWord_obuf (s : State) {a : Byte} (h : 0x40 ≤ a.toNat) (h' : a.toNat ≤ 0xA7) :
    readWord s a = obufWord s (a.toNat - 0x40) := by
  unfold readWord
  have n0 : a ≠ 0x00 := byte_ne (n := 0) (by omega)
  have n1 : a ≠ 0x01 := byte_ne (n := 1) (by omega)
  have n2 : a ≠ 0x02 := byte_ne (n := 2) (by omega)
  have n3 : a ≠ 0x03 := byte_ne (n := 3) (by omega)
  have n4 : a ≠ 0x04 := byte_ne (n := 4) (by omega)
  rw [if_neg n0, if_neg n1, if_neg n2, if_neg n3, if_neg n4, if_pos ⟨h, h'⟩]

/-- A reserved address reads 0. -/
theorem readWord_reserved (s : State) {a : Byte} (h : 0x05 ≤ a.toNat) (h' : a.toNat < 0x40 ∨ 0xA7 < a.toNat) :
    readWord s a = 0 := by
  unfold readWord
  have n0 : a ≠ 0x00 := byte_ne (n := 0) (by omega)
  have n1 : a ≠ 0x01 := byte_ne (n := 1) (by omega)
  have n2 : a ≠ 0x02 := byte_ne (n := 2) (by omega)
  have n3 : a ≠ 0x03 := byte_ne (n := 3) (by omega)
  have n4 : a ≠ 0x04 := byte_ne (n := 4) (by omega)
  rw [if_neg n0, if_neg n1, if_neg n2, if_neg n3, if_neg n4, if_neg (by omega)]

/-- A lane of the read space at an index past OCNT is a draw. -/
theorem obufLane_draw {s : State} {i : Nat} (h : s.ocnt.toNat ≤ i) : obufLane s i = Config.freeByte s.draws (i % 4) :=
  if_neg (by omega)

/-- A lane at a committed and written index is its byte. -/
theorem obufLane_byte {s : State} {i : Nat} {b : Byte} (h : i < s.ocnt.toNat) (hb : s.obuf.get i = some b) :
    obufLane s i = b := by
  rw [obufLane, if_pos h, hb]; rfl

/-- The lanes that two states with the same registers hold at one index agree, where their draws do or the byte is committed
and written. -/
theorem obufLane_congr {u v : State} (h : u.block = v.block) (i : Nat)
    (hd : u.draws = v.draws ∨ (i < v.ocnt.toNat ∧ (v.obuf.get i).isSome = true)) : obufLane u i = obufLane v i := by
  have ho : u.ocnt = v.ocnt := by have := congrArg State.ocnt h; simpa only [State.block_ocnt] using this
  have hm : u.obuf = v.obuf := by have := congrArg State.obuf h; simpa only [State.block_obuf] using this
  rcases hd with hd | ⟨hi, hb⟩
  · simp only [obufLane, ho, hm, hd]
  · obtain ⟨b, hb⟩ := Option.isSome_iff_exists.1 hb
    rw [obufLane_byte hi hb, obufLane_byte (by rw [ho]; exact hi) (by rw [hm]; exact hb)]

/-- The word at an address is the same in two states with the same registers, where their draws are, or where every lane the
address has is committed and written. -/
theorem readWord_congr {u v : State} (h : u.block = v.block) (a : Byte)
    (hd : u.draws = v.draws ∨ ∀ i, 0x40 ≤ a.toNat → a.toNat ≤ 0xA7 → i / 4 = a.toNat - 0x40 →
      i < v.ocnt.toNat ∧ (v.obuf.get i).isSome = true) : readWord u a = readWord v a := by
  by_cases hc : 0x40 ≤ a.toNat ∧ a.toNat ≤ 0xA7
  · have lane : ∀ i, i / 4 = a.toNat - 0x40 → obufLane u i = obufLane v i := fun i hi =>
      obufLane_congr h i (hd.imp_right fun k => k i hc.1 hc.2 hi)
    rw [readWord_obuf _ hc.1 hc.2, readWord_obuf _ hc.1 hc.2, obufWord, obufWord, lane _ (by omega), lane _ (by omega),
      lane _ (by omega), lane _ (by omega)]
  · have e : ∀ s : State, readWord s a = readWord s.block a := by
      intro s
      simp only [readWord, if_neg hc, statusWord, countWord, dstatWord, ddataWord, carryWord, State.block_lseen,
        State.block_berr, State.block_xstate, State.block_resp, State.block_cwrem, State.block_wptr, State.block_ocnt,
        State.block_dcpos, State.block_dsyn, State.block_dopf, State.block_dclass, State.block_ddata, State.block_wlen,
        State.block_wbits, State.block_clen, State.block_cbits]
    rw [e u, e v, h]

end Sys2Proof.Machine
end

