-- ==== Sys2Proof/Tests/Slice0.lean ====
section
/-!
SUPPORT. Tests. Expected values are those of spec/95_test_vectors.md and of the examples in the rules, or are worked out by
hand from a rule; a `test_meets_<Name>` shows a state and operands that meet the hypotheses of `Obligations.<Name>`.
-/

namespace Sys2Proof.Tests

set_option Elab.async false

open Sys2Proof Sys2Proof.Machine

/-! ### Helpers -/

/-- What a field of the next state is; none where there is no next state. -/
def after {α : Type} (f : State → α) : Result → Option α
  | .next s => some (f s)
  | .fault _ => none
  | .refused _ => none

/-- There is a next state. -/
def completes (r : Result) : Bool := (after (fun _ => ()) r).isSome

theorem completes_next {r : Result} (h : completes r = true) : ∃ t, r = .next t := by
  cases r with
  | next t => exact ⟨t, rfl⟩
  | fault _ => cases h
  | refused _ => cases h

/-- A block is open with `n` codewords to come, from an empty carry. -/
def opened (n : BitVec 8) : State := { State.reset with xstate := .inblk, cwrem := n }

/-- The state of program P1 after its BCOMMIT (spec/95_test_vectors.md). -/
def finished : State :=
  { State.reset with
    xstate := .done, lseen := true, wptr := 2, ocnt := 2, ddata := 0x121A400, obuf := [(0, 0x48), (1, 0x69), (2, 0)] }

/-- The host's next action, and no command in progress. -/
def facing (e : HostEvent) (s : State) : State := { s with host := [e] }

/-- A BCOMMIT is in progress, `n` edges from its completion. -/
def busy (n : Nat) : State := { State.reset with inflight := some ⟨⟨0x04, 0⟩, n⟩ }

/-- The pins of an edge with nothing on them. -/
def quiet : Pins := ⟨false, false, 0, 0, 0⟩

/-! ### Legal and illegal terms -/

theorem test_wellFormed_legal_bytes : legalBytes.all (fun b => Command.wellFormed ⟨b, 0xFFFFFFFF⟩) = true := by decide
theorem test_wellFormed_refuses_opcode : Command.wellFormed ⟨0x07, 0⟩ = false := by decide
theorem test_wellFormed_refuses_flag : Command.wellFormed ⟨0x14, 0⟩ = false := by decide
theorem test_wellFormed_refuses_reserved : Command.wellFormed ⟨0x23, 0⟩ = false := by decide
theorem test_wellFormed_refuses_long_len : Listing.wellFormed (.bbegin 65536) = false := by decide
theorem test_wellFormed_refuses_wide_push : Listing.wellFormed (.cwpush 4294967296) = false := by decide
theorem test_wellFormed_refuses_wide_pushL : Listing.wellFormed (.cwpushL 4294967296) = false := by decide
theorem test_wellFormed_refuses_wide_cwdec : Listing.wellFormed (.cwdec 4294967296) = false := by decide
theorem test_wellFormed_refuses_read : Listing.wellFormed (.rd 256) = false := by decide

/-! ### Decoding: words written out bit by bit from spec/30_encoding.md R71 to R73 -/

theorem test_decode_nop : decodeCmd ⟨0b00000000, 0xFFFFFFFF⟩ = .ok .nop := by decide
theorem test_decode_xrst : decodeCmd ⟨0b00000001, 0xFFFFFFFF⟩ = .ok .xrst := by decide
theorem test_decode_bbegin : decodeCmd ⟨0b00000010, 0b11111111111111110000001000000100⟩ = .ok (.bbegin 516) := by decide
theorem test_decode_cwpush :
    decodeCmd ⟨0b00000011, 0b01001001100001100100100000000000⟩ = .ok (.cwpush false 0x49864800) := by decide
theorem test_decode_cwpushL :
    decodeCmd ⟨0b00010011, 0b01001001100001100100100000000000⟩ = .ok (.cwpush true 0x49864800) := by decide
theorem test_decode_bcommit : decodeCmd ⟨0b00000100, 1⟩ = .ok .bcommit := by decide
theorem test_decode_babort : decodeCmd ⟨0b00000101, 1⟩ = .ok .babort := by decide
theorem test_decode_cwdec :
    decodeCmd ⟨0b00000110, 0b10101001000100000000000000000000⟩ = .ok (.cwdec 0xA9100000) := by decide
theorem test_decode_reserved_wins : decodeCmd ⟨0b11110011, 0⟩ = .error .reservedBits := by decide
theorem test_decode_flag_on_bbegin : decodeCmd ⟨0b00010010, 0⟩ = .error .misplacedFlag := by decide
theorem test_decode_opcode_fifteen : decodeCmd ⟨0b00001111, 0⟩ = .error .opcode := by decide

theorem test_encode_bbegin : encode (.bbegin 0xFFFF) = ⟨0x02, 0x0000FFFF⟩ := by decide
theorem test_encode_cwpushL : encode (.cwpush true 0x49864800) = ⟨0x13, 0x49864800⟩ := by decide

theorem test_table_word_cwpush : decodeTableWord 40 0x4986480003 = some (.cwpush false 0x49864800) := by decide
theorem test_table_word_short : decodeTableWord 8 0x4986480013 = some (.cwpush true 0) := by decide

theorem test_fetched_word_runs :
    after (fun t => (t.xstate, t.cwrem, t.host, t.done)) (step (State.reset.withFetchWord 40 0x0000000802)) =
      some (.inblk, 2, [], true) := by decide +kernel

/-! ### Words and read values (spec/95_test_vectors.md sections 2 and 5) -/

theorem test_word_of_bytes : codewordOfBytes 0x49 0x86 0x48 0x00 = 0x49864800 := by decide
theorem test_position_one_and_last : codeBit 0x80000001 1 = true ∧ codeBit 0x80000001 32 = true ∧ codeBit 0x80000001 2 = false := by
  decide

theorem test_decode_V4_position_17 : decodeCodeword 0xB4ABD554 = ⟨.corrected, true, 17, 17, 0x2AAAAAA⟩ := by decide +kernel
theorem test_decode_V5 : decodeCodeword 0x4B54AAAB = ⟨.clean, false, 0, 0, 0x1555555⟩ := by decide +kernel
theorem test_decode_position_32 : decodeCodeword 0x89100001 = ⟨.p32, true, 0, 32, 0x1040000⟩ := by decide +kernel
theorem test_decode_two_errors : decodeCodeword 0x89100003 = ⟨.uncorr, false, 31, 0, 0⟩ := by decide +kernel

theorem test_accumulate_four_bytes : accumulate 6 0x15 0x2AAAAAA false = ⟨[0x56, 0xAA, 0xAA, 0xAA], 4, 0, 0⟩ := by
  decide +kernel
theorem test_accumulate_carry : accumulate 4 0x0A 0x1555555 false = ⟨[0xA5, 0x55, 0x55], 3, 6, 0x15⟩ := by decide +kernel
theorem test_accumulate_zero_scan : accumulate 0 0 0x3FC03FC true = ⟨[0xFF, 0x00, 0xFF], 1, 0, 0⟩ := by decide +kernel
theorem test_accumulate_fourth_byte : accumulate 6 0x3F 0x3FFFF00 true = ⟨[0xFF, 0xFF, 0xFF, 0x00], 3, 0, 0⟩ := by
  decide +kernel

/-- P2 step 4: `STATUS`, `COUNT`, `CARRY`, `DSTAT`. -/
theorem test_status_words :
    let s := { State.reset with
      resp := .uncorr, xstate := .inblk, berr := true, lseen := true, wptr := 3, wlen := 2, wbits := 1, dclass := .uncorr,
      dsyn := 29 }
    statusWord s = 0x69 ∧ countWord s = 0x600 ∧ carryWord s = 0x02010000 ∧ dstatWord s = 0xEB := by decide +kernel

/-- P2, end: `RD 0x40 -> 0x41424344`. -/
theorem test_read_output :
    readWord { State.reset with
      ocnt := 6, obuf := [(0, 0x41), (1, 0x42), (2, 0x43), (3, 0x44), (4, 0x45), (5, 0x46)] } 0x40 = 0x41424344 := by
  decide +kernel

theorem test_memory_order : Memory.set [(1, 0x11), (4, 0x44)] 2 0x22 = [(1, 0x11), (2, 0x22), (4, 0x44)] := by decide
theorem test_memory_overwrite : Memory.setAll [(1, 0x11), (4, 0x44)] 0 [0xA0, 0xA1] = [(0, 0xA0), (1, 0xA1), (4, 0x44)] := by
  decide

/-! ### One command each (spec/95_test_vectors.md sections 4 and 5) -/

theorem test_nop_keeps_resp : after (fun t => t.resp) (execNop { State.reset with resp := .malformed }) = some .malformed := by
  decide

theorem test_xrst_leaves_done :
    after (fun t => (t.xstate, t.lseen, t.wptr, t.ocnt, t.ddata)) (execXrst finished) = some (.ready, false, 0, 0, 0) := by
  decide
theorem test_xrst_keeps_obuf : after (fun t => t.obuf.get 1) (execXrst finished) = some (some 0x69) := by decide

theorem test_bbegin_8 :
    after (fun t => (statusWord t, countWord t)) (execBbegin 8 State.reset) = some (0x00000008, 0x00080000) := by
  decide +kernel
theorem test_bbegin_reloads_carry :
    after (fun t => (t.wlen, t.wbits, t.wptr, t.ocnt, t.berr, t.lseen))
      (execBbegin 512 { State.reset with
        clen := 2, cbits := 1, wlen := 4, wbits := 9, wptr := 3, ocnt := 3, berr := true, lseen := true }) =
      some (2, 1, 0, 0, false, false) := by decide +kernel

theorem test_cwpushL_Hi :
    after (fun t => (t.obuf, t.wptr, t.wlen, t.cwrem)) (execCwpush true 0x49864800 (opened 1)) =
      some ([(0, 0x48), (1, 0x69), (2, 0x00)], 2, 0, 0) := by decide +kernel
theorem test_cwpush_uncorr :
    after (fun t => (t.obuf, t.berr, t.cwrem, t.resp)) (execCwpush false 0xD391B8C0 (opened 2)) =
      some ([], true, 1, .uncorr) := by decide +kernel

theorem test_bcommit_Hi :
    after (fun t => (statusWord t, countWord t)) (execBcommit { finished with xstate := .inblk, ocnt := 0 }) =
      some (0x00000050, 0x00000402) := by decide +kernel
theorem test_bcommit_uncorr :
    after (fun t => (statusWord t, t.clen))
      (execBcommit { opened 0 with berr := true, lseen := true, wptr := 3, wlen := 2, wbits := 1 }) =
      some (0x00000061, 0) := by decide +kernel

theorem test_babort_keeps_working_state :
    after (fun t => (statusWord t, countWord t, carryWord t)) (execBabort { opened 1 with wptr := 3, wlen := 2, wbits := 3 }) =
      some (0, 0x00040600, 0x02030000) := by decide +kernel
theorem test_babort_in_done : after (fun t => (t.resp, t.ocnt)) (execBabort finished) = some (.seq, 2) := by decide

theorem test_cwdec_corrected :
    after (fun t => (dstatWord t, ddataWord t)) (execCwdec 0xA9100000 State.reset) = some (0x0000031D, 0x1040000) := by
  decide +kernel
theorem test_cwdec_uncorr_in_block :
    after (fun t => (t.resp, t.berr, t.cwrem, dstatWord t)) (execCwdec 0xA1100000 (opened 1)) =
      some (.ok, false, 1, 0x00000033) := by decide +kernel

/-! ### The clock -/

theorem test_clock_accepts : accepts ⟨false, true, 0x04, 0, 0⟩ State.reset = true := by decide
theorem test_clock_reset_not_ready : cmdReady ⟨true, true, 0, 0, 0⟩ State.reset = false := by decide
theorem test_clock_completes_at_last_edge :
    after (fun t => (t.resp, t.done, t.inflight)) (tick quiet (busy 1)) =
      some (.seq, true, none) := by decide +kernel
theorem test_clock_waits_before_it :
    after (fun t => (t.resp, t.done, t.inflight)) (tick quiet (busy 2)) =
      some (.ok, false, some ⟨⟨0x04, 0⟩, 1⟩) := by decide +kernel

/-! ### Witnesses: the hypotheses of the obligations can be met -/

theorem test_decodable_zero : decodable 0 := by
  intro h
  exact absurd h (by decide +kernel)

theorem test_not_decodable : ¬ decodable 0xD391B8C0 := by
  intro h
  exact h (by decide +kernel)

theorem test_decodable_blocks : ∀ w ∈ List.replicate 128 (0 : Word), decodable w := by
  intro w h
  rw [List.eq_of_mem_replicate h]
  exact test_decodable_zero

/-- A state of a block with every codeword to come and the longest carry: the edge of the budget in `Inv`. -/
def brimming : State := { opened 128 with clen := 6, cbits := 0x3F, wlen := 6, wbits := 0x3F }

theorem test_inv_brimming : Inv brimming where
  committedCarry := ⟨by decide, by decide⟩
  workingCarry := ⟨by decide, by decide⟩
  countBound := by decide
  pointerBound := by decide
  outputCount := by decide
  noOutputInBlock := by decide
  blockBudget := by decide
  finalLast := by decide
  finalCarry := by decide
  doneCarry := by decide
  status := ⟨rfl, rfl, rfl⟩
  memory := by decide
  written := fun _ h => absurd h (Nat.not_lt_zero _)

theorem test_inv_finished : Inv finished where
  committedCarry := ⟨by decide, by decide⟩
  workingCarry := ⟨by decide, by decide⟩
  countBound := by decide
  pointerBound := by decide
  outputCount := by decide
  noOutputInBlock := by decide
  blockBudget := by decide
  finalLast := by decide
  finalCarry := by decide
  doneCarry := by decide
  status := ⟨rfl, rfl, rfl⟩
  memory := by decide
  written := by decide

theorem test_meets_DecodeEncodeRoundTrip : decodeCmd ⟨0x02, 0xFFFF0004⟩ = .ok (.bbegin 4) := by decide

theorem test_meets_IllegalByteRejected :
    let s := facing (.command 0x07 5) State.reset
    s.inflight = none ∧ s.host = [.command 0x07 5] ∧ Command.wellFormed ⟨0x07, 5⟩ = false := by decide

theorem test_meets_ListingAssembles :
    ([.nop, .xrst, .bbegin 65535, .cwpush 4294967295, .cwpushL 4294967295, .bcommit, .babort, .cwdec 4294967295, .rd 255] :
      List Listing).all Listing.wellFormed = true := by decide

theorem test_meets_StepRunsDecodedCommand :
    let s := facing (.command 0x02 4) State.reset
    s.inflight = none ∧ s.host = [.command 0x02 4] ∧ decodeCmd ⟨0x02, 4⟩ = .ok (.bbegin 4) := by decide

theorem test_meets_ResetEvent :
    ({ quiet with rst := true } : Pins).rst = true ∧ quiet.rst = false ∧
      completes (tick { quiet with rst := true } finished) = true := by decide

theorem test_meets_XrstMatchesReset :
    finished.inflight = none ∧ (∃ t, step (finished.present (encode .xrst)) = .next t) ∧
      ∃ u, perform .reset finished = .next u :=
  ⟨rfl, completes_next (by decide +kernel), completes_next (by decide +kernel)⟩

theorem test_meets_NopChangesNothing :
    finished.inflight = none ∧ ∃ t, step (finished.present (encode .nop)) = .next t :=
  ⟨rfl, completes_next (by decide +kernel)⟩

/-- The three clauses exclude each other; 512 opens a block, 516 and 6 are malformed, DONE rejects. -/
theorem test_meets_BbeginResult :
    finished.xstate ≠ .ready ∧ State.reset.xstate = .ready ∧
      ((516 : BitVec 16).toNat % 4 = 0 ∧ (516 : BitVec 16).toNat > 512) ∧ (6 : BitVec 16).toNat % 4 ≠ 0 ∧
      ((512 : BitVec 16).toNat % 4 = 0 ∧ (512 : BitVec 16).toNat ≤ 512) := by decide

theorem test_meets_CwpushResult_seq :
    State.reset.xstate ≠ .inblk ∧ (opened 0).cwrem = 0 ∧ (opened 2).cwrem ≠ 1 := by decide

theorem test_meets_CwpushResult_uncorr :
    (opened 1).xstate = .inblk ∧ (opened 1).cwrem ≠ 0 ∧ (opened 1).cwrem = 1 ∧
      (decodeCodeword 0xD391B8C0).cls = .uncorr := by decide +kernel

theorem test_meets_CwpushResult_abandoned :
    let s := { opened 1 with berr := true }
    s.xstate = .inblk ∧ s.cwrem ≠ 0 ∧ s.cwrem = 1 ∧ (decodeCodeword 0).cls ≠ .uncorr ∧ s.berr = true := by decide +kernel

/-- Four bytes that end at index 415, the last there is. -/
theorem test_meets_CwpushResult_accumulates :
    let s := { opened 1 with wptr := 412, wlen := 6 }
    s.xstate = .inblk ∧ s.cwrem ≠ 0 ∧ s.cwrem = 1 ∧ (decodeCodeword 0).cls ≠ .uncorr ∧ s.berr = false ∧
      s.wptr.toNat + (accumulate s.wlen s.wbits (decodeCodeword 0).data true).bytes.length = 416 := by decide +kernel

theorem test_meets_CwpushPastBufferStops :
    let s := { opened 1 with wptr := 413, wlen := 6 }
    s.xstate = .inblk ∧ s.cwrem ≠ 0 ∧ s.cwrem = 1 ∧ s.berr = false ∧ decodable 0 ∧
      416 < s.wptr.toNat + (accumulate s.wlen s.wbits (decodeCodeword 0).data true).bytes.length :=
  ⟨rfl, by decide, rfl, rfl, test_decodable_zero, by decide +kernel⟩

theorem test_meets_AbandonedBlockAccumulatesNothing :
    let s := { opened 2 with berr := true }
    s.xstate = .inblk ∧ s.berr = true ∧ s.cwrem.toNat = ([0xD391B8C0, 0] : List Word).length ∧
      ([0xD391B8C0, 0] : List Word).getLast? = some 0 := by decide

theorem test_meets_BcommitResult :
    (State.reset.xstate ≠ .inblk ∧ (opened 1).cwrem ≠ 0) ∧ ((opened 0).xstate = .inblk ∧ (opened 0).cwrem = 0) ∧
      ({ opened 0 with berr := true } : State).berr = true ∧ (opened 0).berr = false ∧
      ({ opened 0 with lseen := true } : State).lseen = true ∧ (opened 0).lseen = false := by decide

theorem test_meets_BabortResult : finished.xstate ≠ .inblk ∧ (opened 1).xstate = .inblk := by decide

theorem test_meets_SequencingTable :
    (∃ t, exec .bcommit (opened 0) = .next t) ∧
      ((∃ t, exec .bcommit (opened 1) = .next t) ∧ mnemonicOf .bcommit = .bcommit ∧ (opened 1).cwrem ≠ 0) ∧
      (∃ t, exec (.bbegin 4) finished = .next t) ∧ (∃ t, exec .babort finished = .next t) ∧
      Command.wellFormed ⟨0x14, 0⟩ = false ∧ ∃ t, performCommand ⟨0x14, 0⟩ finished = .next t :=
  ⟨completes_next (by decide), ⟨completes_next (by decide), by decide, by decide⟩, completes_next (by decide),
    completes_next (by decide), by decide, completes_next (by decide)⟩

theorem test_meets_RejectWritesOnlyResp :
    after (fun t => t.resp) (performCommand ⟨0x02, 6⟩ State.reset) = some .malformed ∧
      after (fun t => t.resp) (performCommand ⟨0x13, 0⟩ (opened 2)) = some .seq ∧
      after (fun t => t.resp) (performCommand ⟨0x0F, 0⟩ finished) = some .illegal ∧
      completes (step (finished.present ⟨0x0F, 0⟩)) = true := by decide +kernel

theorem test_meets_ResponsePrecedence :
    (∃ t, performCommand ⟨0x02, 6⟩ (opened 1) = .next t) ∧ ∃ t, performCommand ⟨0x13, 0xD391B8C0⟩ State.reset = .next t :=
  ⟨completes_next (by decide +kernel), completes_next (by decide +kernel)⟩

theorem test_meets_RespIsReplacedAndNeverRead : Instr.xrst ≠ .nop := by decide

theorem test_meets_RegisterWriters :
    (∃ t, exec .nop finished = .next t) ∧ (∃ t, exec (.cwdec 0) (opened 1) = .next t) ∧
      (∃ t, exec (.cwpush false 0) (opened 1) = .next t) ∧ (∃ t, exec .bcommit (opened 0) = .next t) ∧
      ∃ t, exec .babort (opened 1) = .next t :=
  ⟨completes_next (by decide), completes_next (by decide +kernel), completes_next (by decide +kernel),
    completes_next (by decide), completes_next (by decide)⟩

theorem test_meets_CwpushMemoryFrame :
    (∃ t, exec (.cwpush false 0) (opened 1) = .next t) ∧
      after (fun t => t.resp) (exec (.cwpush false 0xD391B8C0) (opened 1)) = some .uncorr ∧
      after (fun t => t.resp) (exec (.cwpush false 0) { opened 1 with berr := true }) = some .ok :=
  ⟨completes_next (by decide +kernel), by decide +kernel, by decide +kernel⟩

theorem test_meets_BerrIsSticky :
    let s := { opened 0 with berr := true }
    (∃ t, exec .bcommit s = .next t) ∧ s.berr = true ∧ mnemonicOf .bcommit ∉ [.xrst, .bbegin] ∧ s.xstate = .inblk ∧
      s.cwrem = 0 :=
  ⟨completes_next (by decide), rfl, by decide, rfl, rfl⟩

theorem test_meets_DoneIsTerminal :
    (∃ t, exec (.bbegin 4) finished = .next t) ∧ finished.xstate = .done ∧ Instr.bbegin 4 ≠ .xrst :=
  ⟨completes_next (by decide), rfl, by decide⟩

/-- The ends of both ranges, with the bits that lie there. -/
theorem test_meets_PositionsInWord :
    0 < 8 ∧ 7 < 8 ∧ 1 ≤ 1 ∧ 32 ≤ 32 ∧ codeBit (codewordOfBytes 1 0 0 0) 8 = true ∧ codeBit (codewordOfBytes 0 0 0 0x80) 25 = true ∧
      1 ∈ parityPositions ∧ 32 ∈ parityPositions ∧ 31 ∈ dataPositions := by decide

theorem test_meets_ParityMasks : 1 ∈ groupParities ∧ 16 ∈ groupParities := by decide

/-- Both values of `last`, the second with an index below the first zero byte (`41 00 00`). -/
theorem test_meets_AccumulateIsByteLoop :
    (accumulate 6 0x15 0x2AAAAAA false).adv = 4 ∧ 0 < (accumulate 0 0 0x1040000 true).adv := by decide +kernel

/-- The four classes of spec/95_test_vectors.md section 2. -/
theorem test_meets_ClassTable :
    (syndrome 0x89100000 = 0 ∧ overallParity 0x89100000 = false) ∧ (syndrome 0x89100001 = 0 ∧ overallParity 0x89100001 = true) ∧
      (syndrome 0x89100002 = 31 ∧ overallParity 0x89100002 = true) ∧
      (syndrome 0xA1100000 = 6 ∧ overallParity 0xA1100000 = false) := by decide +kernel

theorem test_meets_DecodeCornerCases : (syndrome 0x89110000).toNat ∈ groupParities ∧ overallParity 0x89110000 = true := by
  decide +kernel

theorem test_meets_SingleErrorCorrected :
    (decodeCodeword 0x89100000).cls = .clean ∧ flipPosition 0x89100000 31 = 0x89100002 ∧
      flipPosition 0x89100000 32 = 0x89100001 := by decide +kernel

theorem test_meets_DoubleErrorDetected :
    (decodeCodeword 0x89100000).cls = .clean ∧ flipPosition (flipPosition 0x89100000 1) 32 = 0x09100001 := by decide +kernel

theorem test_meets_DesignLimit : (decodeCodeword 0).cls = .clean := by decide +kernel

theorem test_meets_BlocksDeliverTheStream :
    State.reset.xstate = .ready ∧
      ∀ ws ∈ [List.replicate 128 (0 : Word), []], ws.length ≤ 128 ∧ ∀ w ∈ ws, decodable w := by
  refine ⟨rfl, ?_⟩
  intro ws h
  rcases List.mem_cons.mp h with rfl | h
  · exact ⟨List.length_replicate.le, test_decodable_blocks⟩
  · rw [List.mem_singleton.mp h]
    exact ⟨by decide, by simp⟩

theorem test_meets_FinalBlockDelivers :
    State.reset.xstate = .ready ∧ (List.replicate 127 (0 : Word)).length < 128 ∧
      (∀ v ∈ List.replicate 127 (0 : Word), decodable v) ∧ decodable 0 := by
  refine ⟨rfl, by rw [List.length_replicate]; decide, ?_, test_decodable_zero⟩
  intro w h
  rw [List.eq_of_mem_replicate h]
  exact test_decodable_zero

theorem test_meets_FullBlock :
    State.reset.xstate = .ready ∧ (List.replicate 128 (0 : Word)).length = 128 ∧
      (∀ w ∈ List.replicate 128 (0 : Word), decodable w) ∧ carryLegal State.reset.clen State.reset.cbits :=
  ⟨rfl, List.length_replicate, test_decodable_blocks, by decide, by decide⟩

theorem test_meets_NoPartialAcceptance :
    State.reset.xstate = .ready ∧ ([0, 0xD391B8C0] : List Word).length ≤ 128 ∧
      ∃ w ∈ ([0, 0xD391B8C0] : List Word), ¬ decodable w :=
  ⟨rfl, by decide, _, by decide, test_not_decodable⟩

theorem test_meets_RetransmissionDeterminism :
    State.reset.xstate = .ready ∧
      (∀ a ∈ [Attempt.committed true [0xD391B8C0], Attempt.aborted false [0, 0] 1], a.fails) ∧
      ([0] : List Word).length ≤ 128 := by
  refine ⟨rfl, ?_, by decide⟩
  intro a h
  rcases List.mem_cons.mp h with rfl | h
  · exact ⟨by decide, _, by decide, test_not_decodable⟩
  · rw [List.mem_singleton.mp h]
    exact (by decide : 2 ≤ maxCodewords)

theorem test_meets_ProtocolBlock :
    (List.replicate 512 (0 : Byte)).length % 4 = 0 ∧ (List.replicate 512 (0 : Byte)).length ≤ 512 ∧
      4 * 127 + 3 < (List.replicate 512 (0 : Byte)).length := by
  rw [List.length_replicate]
  decide

theorem test_meets_ProtocolBlock_word : ([1, 2] : List Word)[1]? = some 2 := rfl

/-- The pushes of a final block of two codewords, from spec/30_encoding.md R78. -/
theorem test_pushes_of_final_block :
    blockCommands [0x49, 0x15, 0x12, 0x1B, 0xD3, 0x11, 0xA8, 0xC0] =
      [.bbegin 8, .cwpush false 0x4915121B, .cwpush true 0xD311A8C0, .bcommit] := by decide

theorem test_meets_EmptyPayload : State.reset.xstate = .ready := rfl

theorem test_meets_StepKeepsInvariant : Inv brimming ∧ ∃ t, step (brimming.present (encode (.cwpush false 0))) = .next t :=
  ⟨test_inv_brimming, completes_next (by decide +kernel)⟩

theorem test_meets_TickKeepsInvariant :
    Inv finished ∧ ∃ t, tick quiet { finished with inflight := some ⟨⟨0x01, 0⟩, 1⟩ } = .next t :=
  ⟨test_inv_finished, completes_next (by decide +kernel)⟩

theorem test_meets_StepNeverStops : Inv brimming := test_inv_brimming

/-- The reserved addresses and the output words at the ends of their ranges; the two clauses exclude each other. -/
theorem test_meets_ReadSpaceMap :
    ((0x05 ≤ (0x05 : Byte).toNat ∧ (0x3F : Byte).toNat ≤ 0x3F) ∧ 0xA8 ≤ (0xA8 : Byte).toNat) ∧
      (0x40 ≤ (0x40 : Byte).toNat ∧ (0xA7 : Byte).toNat ≤ 0xA7 ∧ 4 * ((0xA7 : Byte).toNat - 0x40) ≤ 415 ∧
        415 < 4 * ((0xA7 : Byte).toNat - 0x40) + 4) ∧
      (1 < finished.ocnt.toNat ∧ finished.obuf.get 1 = some 0x69) ∧ finished.ocnt.toNat ≤ 2 := by decide

theorem test_meets_CommittedOutputReadable :
    finished.ocnt.toNat ≤ 416 ∧ 1 < finished.ocnt.toNat ∧ finished.obuf.get 1 = some 0x69 := by decide

theorem test_meets_ReadHasNoSideEffect :
    let s := { finished with host := [.read 0x40, .read 0x40] }
    let r := { finished with host := [.read 0x04, .read 0x04] }
    (s.inflight = none ∧ s.host = [.read 0x40, .read 0x40]) ∧ (r.inflight = none ∧ r.host = [.read 0x04, .read 0x04]) ∧
      ¬ 0x40 ≤ (0x04 : Byte).toNat := by decide

/-- The word at 0x41 with two of its four bytes committed: a committed lane beside draws. -/
theorem test_meets_ReadHasNoSideEffect_lane :
    let s := { State.reset with
      ocnt := 6, obuf := [(0, 1), (1, 2), (2, 3), (3, 4), (4, 5), (5, 6)], host := [.read 0x41, .read 0x41] }
    0x40 ≤ (0x41 : Byte).toNat ∧ (0x41 : Byte).toNat ≤ 0xA7 ∧ 5 / 4 = (0x41 : Byte).toNat - 0x40 ∧ 5 < s.ocnt.toNat ∧
      (s.obuf.get 5).isSome = true ∧ ¬ 6 < s.ocnt.toNat := by decide

/-- The word at 0x40 with all four bytes committed. -/
theorem test_meets_ReadHasNoSideEffect_output :
    let s := { finished with ocnt := 4, obuf := [(0, 1), (1, 2), (2, 3), (3, 4)], host := [.read 0x40, .read 0x40] }
    ∀ i, 0x40 ≤ (0x40 : Byte).toNat → (0x40 : Byte).toNat ≤ 0xA7 → i / 4 = (0x40 : Byte).toNat - 0x40 →
      i < s.ocnt.toNat ∧ (s.obuf.get i).isSome = true := by
  intro s i _ _ h
  have h' : i < 4 := by
    have : i / 4 = 0 := h
    omega
  have : ∀ i < 4, i < s.ocnt.toNat ∧ (s.obuf.get i).isSome = true := by decide
  exact this i h'

theorem test_meets_ReadoutWindow :
    Inv finished ∧ after (fun t => t.resp) (exec .xrst finished) = some .ok ∧
      after (fun t => t.resp) (exec (.bbegin 4) finished) = some .seq ∧
      after (fun t => t.resp) (exec (.bbegin 4) { finished with xstate := .ready }) = some .ok ∧
      after (fun t => t.resp) (exec .babort brimming) = some .ok ∧
      after (fun t => t.resp) (exec .bcommit { opened 0 with berr := true }) = some .uncorr ∧
      ∃ t, exec (.cwdec 0) finished = .next t :=
  ⟨test_inv_finished, by decide, by decide, by decide, by decide, by decide, completes_next (by decide +kernel)⟩

theorem test_meets_HandshakeRefinesTransaction :
    let p : Pins := ⟨false, true, 0x04, 0, 0⟩
    let ps := List.replicate (cmdLatency p.command (opened 0)) quiet
    (opened 0).inflight = none ∧ p.rst = false ∧ p.cmdValid = true ∧ (∀ q ∈ ps, q.rst = false) ∧
      ps.length = cmdLatency p.command (opened 0) ∧ ∃ t, step ((opened 0).present p.command) = .next t := by
  refine ⟨rfl, rfl, rfl, ?_, List.length_replicate, completes_next (by decide +kernel)⟩
  intro q h
  rw [List.eq_of_mem_replicate h]
  rfl

theorem test_meets_IdleRetainsState :
    finished.inflight = none ∧ finished.host = [] ∧ quiet.rst = false ∧ quiet.cmdValid = false := by decide

theorem test_meets_BusyBlockAcceptsNothing :
    cmdReady quiet (busy 2) = false ∧ cmdReady { quiet with rst := true } State.reset = false ∧
      quiet.rst = ({ quiet with cmdValid := true } : Pins).rst ∧
      quiet.rdAddr = ({ quiet with cmdValid := true } : Pins).rdAddr := by decide

theorem test_meets_ReadDuringCommandIsDraw :
    ((busy 2).inflight ≠ none ∧ ∃ t, tick quiet (busy 2) = .next t) ∧
    ((facing (.readDuring 0x00) finished).inflight = none ∧
      (facing (.readDuring 0x00) finished).host = [.readDuring 0x00]) ∧
    finished.inflight = none ∧ quiet.rst = false ∧ quiet.cmdValid = false :=
  ⟨⟨by decide, completes_next (by decide +kernel)⟩, ⟨rfl, rfl⟩, rfl, rfl, rfl⟩

end Sys2Proof.Tests
end

section
/-!
The step on a presented command: what `step` and `performCommand` do where a command is accepted and its byte is legal
(spec/00_scope.md R3, spec/30_encoding.md R70, R76, spec/70_reset_and_hazards.md R186).
-/

namespace Sys2Proof.Machine

theorem State.withInflight_none_of_idle {s : State} (hidle : s.inflight = none) : s.withInflight none = s := by
  rw [← hidle]; rfl

/-- An idle block completes the command its host's next action presents. -/
theorem step_of_command {s : State} {cmd : Byte} {arg : Word} {rest : List HostEvent} (hidle : s.inflight = none)
    (hhost : s.host = .command cmd arg :: rest) : step s = completeCommand ⟨cmd, arg⟩ (s.withHost rest) := by
  unfold step transact
  rw [hidle, hhost]
  rfl

theorem performCommand_of_decode_ok {c : Command} {i : Instr} (hdec : decodeCmd c = .ok i) (s : State) :
    performCommand c s = exec i s := by
  unfold performCommand
  rw [hdec]

/-- A legal command completes, on an idle block, as its meaning does, with `done` raised. -/
theorem completeCommand_of_decode_ok {c : Command} {i : Instr} {s : State} (hidle : s.inflight = none)
    (hdec : decodeCmd c = .ok i) : completeCommand c s = Result.map (State.withDone true) (exec i s) := by
  unfold completeCommand
  rw [State.withInflight_none_of_idle hidle, performCommand_of_decode_ok hdec]

/-- Settles O6: the step is the completion of the presented command, and a legal command completes as `exec` does, with
`done` raised on a next state and a fault or a refusal passed on. -/
theorem stepRunsDecodedCommand : Obligations.StepRunsDecodedCommand := by
  intro s cmd arg rest i hidle hhost hdec
  have hstep : step s = Result.map (State.withDone true) (exec i { s with host := rest }) :=
    (step_of_command hidle hhost).trans (completeCommand_of_decode_ok (s := s.withHost rest) hidle hdec)
  rw [hstep]
  cases exec i { s with host := rest } <;> rfl

end Sys2Proof.Machine
end

section
/-!
The invariant of the block under each register update: it speaks of the registers alone, and each command's writes keep it
(spec/10_state.md R24 to R26, R32, spec/41_accumulator.md R118).
-/

namespace Sys2Proof.Machine

/-! ### What the invariant does not see -/

/-- The ports and the model's own fields have no part in the invariant. -/
theorem inv_block {s : State} : Inv s.block ↔ Inv s := ⟨fun h => { h with }, fun h => { h with }⟩

theorem Inv.of_block_eq {s t : State} (hs : Inv s) (h : t.block = s.block) : Inv t :=
  inv_block.1 (h ▸ inv_block.2 hs)

theorem Inv.withResp {s : State} (h : Inv s) (code : Resp) : Inv (s.withResp code) := { h with }

/-! ### XRST, reset and the opening and closing of a block -/

/-- With every register cleared, only OBUF's canonical form is left to ask. -/
theorem inv_clearRegisters {s : State} (h : s.obuf.wf) : Inv s.clearRegisters where
  committedCarry := ⟨by simp, by simp⟩
  workingCarry := ⟨by simp, by simp⟩
  countBound := by simp
  pointerBound := by simp
  outputCount := .inl rfl
  noOutputInBlock := by simp
  blockBudget := by simp
  finalLast := by simp
  finalCarry := by simp
  doneCarry := by simp
  status := ⟨rfl, rfl, rfl⟩
  memory := h
  written := by simp

/-- A legal length is at most 128 codewords, and the budget of a block holds with the longest carry. -/
theorem Inv.openBlock {s : State} (h : Inv s) {n : Nat} (hn : n ≤ maxPayload) : Inv (s.openBlock n) := by
  rw [maxPayload] at hn
  have hcount : (s.openBlock n).cwrem.toNat = n / 4 := by
    rw [State.openBlock_cwrem, BitVec.toNat_ofNat]; exact Nat.mod_eq_of_lt (by omega)
  have hlen : s.clen.toNat ≤ 6 := by
    obtain ⟨e | e | e | e, -⟩ := h.committedCarry <;> simp [e]
  exact
    { h with
      workingCarry := h.committedCarry
      countBound := by rw [hcount, maxCodewords]; omega
      pointerBound := by simp
      outputCount := .inl rfl
      noOutputInBlock := fun _ => rfl
      blockBudget := fun _ => by
        have hptr : (s.openBlock n).wptr.toNat = 0 := rfl
        rw [hcount, hptr, State.openBlock_wlen, maxCodewords]; omega
      finalLast := by simp
      finalCarry := by simp
      doneCarry := by simp
      written := by simp }

theorem Inv.dropBlock {s : State} (h : Inv s) : Inv s.dropBlock :=
  { h with
    outputCount := .inl rfl
    noOutputInBlock := by simp
    blockBudget := by simp
    finalLast := by simp
    finalCarry := by simp
    doneCarry := by simp }

/-- A commit ends the block; it leads to DONE only after the final codeword, whose leftover was discarded. -/
theorem Inv.commitBlock {s : State} (h : Inv s) (hblk : s.xstate = .inblk) (hberr : s.berr = false) :
    Inv s.commitBlock := by
  have hout : s.commitBlock.xstate ≠ .inblk := by cases hl : s.lseen <;> simp [hl]
  exact
    { h with
      committedCarry := h.workingCarry
      outputCount := .inr rfl
      noOutputInBlock := fun e => absurd e hout
      blockBudget := fun e => absurd e hout
      finalLast := fun e => absurd e hout
      finalCarry := fun e => absurd e hout
      doneCarry := fun e => by
        cases hl : s.lseen with
        | true => exact h.finalCarry hblk hl hberr
        | false => simp [hl] at e }

/-! ### The decode status -/

theorem syndrome_pos {w : Word} (h : syndrome w ≠ 0) : 1 ≤ (syndrome w).toNat :=
  Nat.one_le_iff_ne_zero.2 fun e => h (BitVec.eq_of_toNat_eq (by simpa using e))

/-- Correcting the position the syndrome names inverts the overall parity. -/
theorem overallParity_corrected {w : Word} (h : syndrome w ≠ 0) :
    overallParity (flipPosition w (syndrome w).toNat) = !overallParity w :=
  overallParity_flipPosition w (syndrome_pos h) (by have := (syndrome w).isLt; omega)

/-- Decode by its two bits (spec/40_codeword_decoder.md R96). -/
theorem decodeCodeword_cases (w : Word) :
    (syndrome w ≠ 0 ∧ overallParity w = true ∧ decodeCodeword w =
      ⟨.corrected, true, syndrome w, (syndrome w).setWidth 6, extractData (flipPosition w (syndrome w).toNat)⟩) ∨
    (syndrome w ≠ 0 ∧ overallParity w = false ∧ decodeCodeword w = ⟨.uncorr, false, syndrome w, 0, 0⟩) ∨
    (syndrome w = 0 ∧ overallParity w = true ∧ decodeCodeword w = ⟨.p32, true, 0, 32, extractData w⟩) ∨
    (syndrome w = 0 ∧ overallParity w = false ∧ decodeCodeword w = ⟨.clean, false, 0, 0, extractData w⟩) := by
  by_cases hsyn : syndrome w = 0
  · cases hpar : overallParity w <;> simp [decodeCodeword, hsyn, hpar]
  · have hflip := overallParity_corrected hsyn
    cases hpar : overallParity w
    · exact .inr (.inl ⟨hsyn, rfl, by simp only [decodeCodeword, ne_eq, hsyn, hflip, hpar]; rfl⟩)
    · exact .inl ⟨hsyn, rfl, by simp only [decodeCodeword, ne_eq, hsyn, hflip, hpar]; rfl⟩

/-- A decode writes fields that agree. -/
theorem statusConsistent_withDecoded (s : State) (w : Word) : statusConsistent (s.withDecoded (decodeCodeword w)) := by
  rcases decodeCodeword_cases w with ⟨hsyn, -, e⟩ | ⟨hsyn, -, e⟩ | ⟨-, -, e⟩ | ⟨-, -, e⟩ <;> rw [e]
  · exact ⟨rfl, hsyn, BitVec.toNat_setWidth_of_le (by decide)⟩
  · exact ⟨rfl, hsyn, rfl, rfl⟩
  · exact ⟨rfl, rfl, rfl⟩
  · exact ⟨rfl, rfl, rfl⟩

theorem Inv.withDecoded {s : State} (h : Inv s) (w : Word) : Inv (s.withDecoded (decodeCodeword w)) :=
  { h with status := statusConsistent_withDecoded s w }

/-! ### Pushes -/

theorem Inv.markBerr {s : State} (h : Inv s) : Inv s.markBerr :=
  { h with finalCarry := by simp }

/-- After a counted codeword `L` has been seen only where none is left, and `L` was not seen before it. -/
theorem Inv.countCodeword_lseen {s : State} (h : Inv s) (hblk : s.xstate = .inblk) (hcw : s.cwrem ≠ 0) (last : Bool) :
    (s.countCodeword last).lseen = last := by
  cases hl : s.lseen with
  | true => exact absurd (h.finalLast hblk hl) hcw
  | false => simp [hl]

/-- A push into an abandoned block counts its codeword and accumulates nothing. -/
theorem Inv.countCodeword_of_berr {s : State} (h : Inv s) (hblk : s.xstate = .inblk) (hcw : s.cwrem ≠ 0) {last : Bool}
    (hlast : last = true → s.cwrem = 1) (hberr : s.berr = true) : Inv (s.countCodeword last) := by
  have hpred : (s.countCodeword last).cwrem.toNat + 1 = s.cwrem.toNat := cwrem_pred hcw
  exact
    { h with
      countBound := by have := h.countBound; omega
      blockBudget := fun _ => by
        have := h.blockBudget hblk
        rw [State.countCodeword_wptr, State.countCodeword_wlen]; omega
      finalLast := fun _ e => by
        rw [h.countCodeword_lseen hblk hcw] at e
        rw [State.countCodeword_cwrem, hlast e]; rfl
      finalCarry := fun _ _ e => by simp [hberr] at e }

/-- The new leftover has an even length below 8 where the old one has (spec/41_accumulator.md R115). -/
theorem carryLegal_accumulate {len : BitVec 3} {bits : BitVec 7} (h : carryLegal len bits) (d : Data) (last : Bool) :
    carryLegal (accumulate len bits d last).len (accumulate len bits d last).bits := by
  refine ⟨?_, accumulate_bits_lt len bits d last⟩
  cases last with
  | true => exact .inl rfl
  | false => obtain ⟨rfl | rfl | rfl | rfl, -⟩ := h <;> simp [accumulate]

/-- The state after an accumulating push, but for the decode status and RESP. -/
def State.accumulated (d : Data) (last : Bool) (s : State) : State :=
  let a := accumulate s.wlen s.wbits d last
  ((s.countCodeword last).withObuf (s.obuf.setAll s.wptr.toNat a.bytes)).advance a

/-- An accumulating push whose bytes fit: what it outputs and leaves over is paid from the codeword's 26 bits, every byte
below the new WPTR is an old one or one of those it wrote, and the final codeword leaves nothing over. -/
theorem Inv.accumulated {s : State} (h : Inv s) (hblk : s.xstate = .inblk) (hcw : s.cwrem ≠ 0) {last : Bool}
    (hlast : last = true → s.cwrem = 1) (d : Data) (hfit : s.wptr.toNat + (s.wlen.toNat + 26) / 8 ≤ obufBytes) :
    Inv (s.accumulated d last) := by
  have hpred : (s.accumulated d last).cwrem.toNat + 1 = s.cwrem.toNat := cwrem_pred hcw
  have hptr : (s.accumulated d last).wptr.toNat = s.wptr.toNat + (accumulate s.wlen s.wbits d last).adv :=
    wptr_advance hfit
  have hseen : (s.accumulated d last).lseen = last := h.countCodeword_lseen hblk hcw last
  have hwlen : (s.accumulated d last).wlen = (accumulate s.wlen s.wbits d last).len := rfl
  have hadv := accumulate_adv_le s.wlen s.wbits d last
  have hbytes := accumulate_bytes_length s.wlen s.wbits d last
  exact
    { h with
      workingCarry := carryLegal_accumulate h.workingCarry d last
      countBound := by have := h.countBound; omega
      pointerBound := by omega
      outputCount := .inl (h.noOutputInBlock hblk)
      blockBudget := fun _ => by
        have := h.blockBudget hblk
        have := accumulate_budget s.wlen s.wbits d last
        rw [hptr, hwlen]; omega
      finalLast := fun _ e => by
        have := hlast (hseen.symm.trans e)
        change s.cwrem - 1 = 0
        rw [this]; rfl
      finalCarry := fun _ e _ => by
        obtain rfl : last = true := hseen.symm.trans e
        exact ⟨rfl, rfl⟩
      memory := Memory.setAll_wf _ h.memory (by omega)
      written := fun i hi => by
        change ((s.obuf.setAll s.wptr.toNat (accumulate s.wlen s.wbits d last).bytes).get i).isSome = true
        by_cases hold : i < s.wptr.toNat
        · rw [Memory.get_setAll_outside _ _ (.inl hold)]; exact h.written i hold
        · obtain ⟨j, rfl⟩ := Nat.exists_eq_add_of_le (Nat.le_of_not_lt hold)
          have hj : j < (accumulate s.wlen s.wbits d last).bytes.length := by omega
          rw [Memory.get_setAll_inside _ _ hj, List.getElem?_eq_getElem hj]; rfl }

end Sys2Proof.Machine
end

section
/-!
The invariant along a command, a step and a clock edge.
-/

namespace Sys2Proof.Machine

/-- Every command keeps the invariant. -/
theorem exec_keeps_inv {i : Instr} {s t : State} (hs : Inv s) (h : exec i s = .next t) : Inv t := by
  obtain ⟨-, rfl⟩ | ⟨-, rfl⟩ | ⟨w, -, rfl⟩ | ⟨len, -, hbbegin⟩ | ⟨-, hbabort⟩ | ⟨-, hbcommit⟩ | ⟨last, w, -, hcwpush⟩ :=
    exec_next_cases h
  · exact hs
  · exact (inv_clearRegisters hs.memory).withResp _
  · exact (hs.withDecoded w).withResp _
  · obtain ⟨-, rfl⟩ | ⟨-, -, rfl⟩ | ⟨-, -, hlen, rfl⟩ := hbbegin
    · exact hs.withResp _
    · exact hs.withResp _
    · exact (hs.openBlock hlen).withResp _
  · obtain ⟨-, rfl⟩ | ⟨-, rfl⟩ := hbabort
    · exact hs.withResp _
    · exact hs.dropBlock.withResp _
  · obtain ⟨-, rfl⟩ | ⟨-, -, -, rfl⟩ | ⟨hblk, -, hberr, rfl⟩ := hbcommit
    · exact hs.withResp _
    · exact hs.dropBlock.withResp _
    · exact (hs.commitBlock hblk hberr).withResp _
  · obtain ⟨-, rfl⟩ | ⟨hblk, hcw, hlast, ⟨-, rfl⟩ | ⟨-, hberr, rfl⟩ | ⟨-, -, hfit, rfl⟩⟩ := hcwpush
    · exact hs.withResp _
    · exact ((hs.markBerr.countCodeword_of_berr hblk hcw hlast rfl).withDecoded w).withResp _
    · exact ((hs.countCodeword_of_berr hblk hcw hlast hberr).withDecoded w).withResp _
    · exact ((hs.accumulated hblk hcw hlast (decodeCodeword w).data hfit).withDecoded w).withResp _

/-- A raw command keeps the invariant, an illegal one too. -/
theorem performCommand_keeps_inv {c : Command} {s t : State} (hs : Inv s) (h : performCommand c s = .next t) : Inv t := by
  unfold performCommand at h
  split at h
  · exact exec_keeps_inv hs h
  · cases h; exact hs.withResp _

theorem completeCommand_keeps_inv {c : Command} {s t : State} (hs : Inv s) (h : completeCommand c s = .next t) : Inv t := by
  obtain ⟨u, hu, rfl⟩ := completeCommand_next h
  have hidle : Inv (s.withInflight none) := hs.of_block_eq rfl
  exact (performCommand_keeps_inv hidle hu).of_block_eq rfl

theorem Inv.portReset {s : State} (hs : Inv s) : Inv (portReset s) :=
  (inv_clearRegisters hs.memory).of_block_eq rfl

/-- Settles O46: the reset state has every register cleared and nothing in OBUF. -/
theorem resetMeetsInvariant : Obligations.ResetMeetsInvariant :=
  (inv_clearRegisters reset_memory_wf : Inv State.reset.clearRegisters)

/-- Settles O47: a step is a command run to completion, a reset, or an action that leaves the registers alone. -/
theorem stepKeepsInvariant : Obligations.StepKeepsInvariant := by
  intro s t hs h
  obtain ⟨f, -, e⟩ | ⟨c, es, -, -, e⟩ | ⟨a, es, -, -, e⟩ | ⟨a, es, -, -, e⟩ | ⟨es, -, -, e⟩ | ⟨-, -, e⟩ := step_cases s <;>
    rw [e] at h
  · exact completeCommand_keeps_inv hs h
  · have hrest : Inv (s.withHost es) := hs.of_block_eq rfl
    exact completeCommand_keeps_inv hrest h
  · cases h; exact hs.of_block_eq rfl
  · cases h; exact hs.of_block_eq rfl
  · cases h
    have hrest : Inv (s.withHost es) := hs.of_block_eq rfl
    exact hrest.portReset
  · cases h; exact hs.of_block_eq rfl

/-- The registered read of an edge changes no register of the block. -/
@[simp] theorem sampleRead_block (p : Pins) (s : State) : (sampleRead p s).block = s.block := by
  unfold sampleRead
  split <;> rfl

/-- Everything a clock edge can do. -/
theorem tick_cases (p : Pins) (s : State) :
    (p.rst = true ∧ tick p s = .next (portReset (sampleRead p s))) ∨
    (∃ f, p.rst = false ∧ s.inflight = some f ∧ f.left ≤ 1 ∧ tick p s = completeCommand f.command (sampleRead p s)) ∨
    (∃ f, p.rst = false ∧ s.inflight = some f ∧ 1 < f.left ∧
      tick p s = .next (((sampleRead p s).withInflight (some ⟨f.command, f.left - 1⟩)).withDone false)) ∨
    (p.rst = false ∧ s.inflight = none ∧ p.cmdValid = true ∧
      tick p s =
        .next (((sampleRead p s).withInflight (some ⟨p.command, cmdLatency p.command s⟩)).withDone false)) ∨
    (p.rst = false ∧ s.inflight = none ∧ p.cmdValid = false ∧ tick p s = .next ((sampleRead p s).withDone false)) := by
  unfold tick
  cases hrst : p.rst with
  | true => exact .inl ⟨rfl, rfl⟩
  | false =>
    cases hf : s.inflight with
    | some f =>
      by_cases hleft : f.left ≤ 1
      · exact .inr (.inl ⟨f, rfl, rfl, hleft, if_pos hleft⟩)
      · exact .inr (.inr (.inl ⟨f, rfl, rfl, by omega, if_neg hleft⟩))
    | none =>
      cases hv : p.cmdValid with
      | true => exact .inr (.inr (.inr (.inl ⟨rfl, rfl, rfl, rfl⟩)))
      | false => exact .inr (.inr (.inr (.inr ⟨rfl, rfl, rfl, rfl⟩)))

/-- Settles O48: an edge resets, completes a command, or changes nothing but the ports. -/
theorem tickKeepsInvariant : Obligations.TickKeepsInvariant := by
  intro p s t hs h
  have hread : Inv (sampleRead p s) := hs.of_block_eq (sampleRead_block p s)
  obtain ⟨-, e⟩ | ⟨f, -, -, -, e⟩ | ⟨f, -, -, -, e⟩ | ⟨-, -, -, e⟩ | ⟨-, -, -, e⟩ := tick_cases p s <;> rw [e] at h
  · cases h; exact hread.portReset
  · exact completeCommand_keeps_inv hread h
  · cases h; exact hread.of_block_eq rfl
  · cases h; exact hread.of_block_eq rfl
  · cases h; exact hread.of_block_eq rfl

end Sys2Proof.Machine
end

section
/-!
Which registers a command reads and writes (spec/10_state.md R23, R29, R35, R36).
-/

namespace Sys2Proof.Machine

/-- The accumulating end of a push writes RESP without reading it. -/
theorem pushData_withResp (d : Data) (last : Bool) (s : State) (r : Resp) :
    pushData d last (s.withResp r) = pushData d last s := by
  rcases pushData_cases d last s with ⟨h, e⟩ | ⟨h, e⟩ <;>
    rcases pushData_cases d last (s.withResp r) with ⟨h', e'⟩ | ⟨h', e'⟩
  · rw [e, e']; rfl
  · exact absurd h' (not_lt.2 h)
  · exact absurd h (not_lt.2 h')
  · rw [e, e']; rfl

/-- A command other than NOP does not depend on the RESP it finds. -/
theorem exec_withResp {i : Instr} (hi : i ≠ .nop) (s : State) (r : Resp) : exec i (s.withResp r) = exec i s := by
  cases i with
  | nop => exact absurd rfl hi
  | xrst => rfl
  | bbegin len => rfl
  | bcommit => rfl
  | babort => rfl
  | cwdec w => rfl
  | cwpush last w =>
    have hpush := pushData_withResp (decodeCodeword w).data last ((s.countCodeword last).withDecoded (decodeCodeword w)) r
    have hcount : ((s.withResp r).countCodeword last).withDecoded (decodeCodeword w) =
        ((s.countCodeword last).withDecoded (decodeCodeword w)).withResp r := rfl
    simp only [exec, execCwpush, hcount, hpush]
    rfl

/-- Settles O21: every other command overwrites RESP unread, and NOP answers the state it finds. -/
theorem respIsReplacedAndNeverRead : Obligations.RespIsReplacedAndNeverRead :=
  fun _ s r => ⟨fun hi => exec_withResp hi s r, rfl⟩

/-- Settles O22, by the writes of each command in each of its forms. -/
theorem registerWriters : Obligations.RegisterWriters := by
  intro i s t h
  obtain ⟨rfl, rfl⟩ | ⟨rfl, rfl⟩ | ⟨w, rfl, rfl⟩ | ⟨len, rfl, hbbegin⟩ | ⟨rfl, hbabort⟩ | ⟨rfl, hbcommit⟩ |
    ⟨last, w, rfl, hcwpush⟩ := exec_next_cases h
  · simp
  · simp [mnemonicOf]
  · simp [mnemonicOf]
  · obtain ⟨-, rfl⟩ | ⟨-, -, rfl⟩ | ⟨-, -, -, rfl⟩ := hbbegin <;> simp [mnemonicOf]
  · obtain ⟨-, rfl⟩ | ⟨-, rfl⟩ := hbabort <;> simp [mnemonicOf]
  · obtain ⟨-, rfl⟩ | ⟨-, -, -, rfl⟩ | ⟨-, -, -, rfl⟩ := hbcommit <;> simp [mnemonicOf]
  · obtain ⟨-, rfl⟩ | ⟨-, -, -, ⟨-, rfl⟩ | ⟨-, -, rfl⟩ | ⟨-, -, -, rfl⟩⟩ := hcwpush <;> simp [mnemonicOf]

end Sys2Proof.Machine
end

section
/-!
The five status words of the read space, field by field (spec/10_state.md R30 to R34).
-/

namespace Sys2Proof.Machine

/-! ### The numeric codes -/

theorem Resp.code_toNat (r : Resp) :
    r.code.toNat = match r with | .ok => 0 | .uncorr => 1 | .malformed => 2 | .seq => 3 | .illegal => 4 := by
  cases r <;> rfl

theorem XState.code_toNat (x : XState) :
    x.code.toNat = match x with | .ready => 0 | .inblk => 1 | .done => 2 := by
  cases x <;> rfl

theorem DClass.code_toNat (c : DClass) :
    c.code.toNat = match c with | .clean => 0 | .corrected => 1 | .p32 => 2 | .uncorr => 3 := by
  cases c <;> rfl

/-! ### The fields

The library's lemmas find a field by the widths of the parts, so these widths must stay sums: hence `-Nat.reduceAdd`. -/

theorem statusWord_fields (s : State) :
    (statusWord s).extractLsb' 0 3 = s.resp.code ∧ (statusWord s).extractLsb' 3 2 = s.xstate.code ∧
    (statusWord s).getLsbD 5 = s.berr ∧ (statusWord s).getLsbD 6 = s.lseen ∧ (statusWord s).extractLsb' 7 25 = 0 := by
  simp [-Nat.reduceAdd, -BitVec.getLsbD_eq_getElem, statusWord, BitVec.extractLsb'_append_eq_of_le,
    BitVec.extractLsb'_append_eq_of_add_le, BitVec.getLsbD_append]

theorem countWord_fields (s : State) :
    (countWord s).extractLsb' 0 9 = s.ocnt ∧ (countWord s).extractLsb' 9 9 = s.wptr ∧
    (countWord s).extractLsb' 18 8 = s.cwrem ∧ (countWord s).extractLsb' 26 6 = 0 := by
  simp [-Nat.reduceAdd, countWord, BitVec.extractLsb'_append_eq_of_le, BitVec.extractLsb'_append_eq_of_add_le]

theorem dstatWord_fields (s : State) :
    (dstatWord s).extractLsb' 0 2 = s.dclass.code ∧ (dstatWord s).getLsbD 2 = s.dopf ∧
    (dstatWord s).extractLsb' 3 5 = s.dsyn ∧ (dstatWord s).extractLsb' 8 6 = s.dcpos ∧
    (dstatWord s).extractLsb' 14 18 = 0 := by
  simp [-Nat.reduceAdd, -BitVec.getLsbD_eq_getElem, dstatWord, BitVec.extractLsb'_append_eq_of_le,
    BitVec.extractLsb'_append_eq_of_add_le, BitVec.getLsbD_append]

theorem ddataWord_fields (s : State) :
    (ddataWord s).extractLsb' 0 26 = s.ddata ∧ (ddataWord s).extractLsb' 26 6 = 0 := by
  simp [-Nat.reduceAdd, ddataWord, BitVec.extractLsb'_append_eq_of_le, BitVec.extractLsb'_append_eq_of_add_le]

theorem carryWord_fields (s : State) :
    (carryWord s).extractLsb' 0 7 = s.cbits ∧ (carryWord s).getLsbD 7 = false ∧ (carryWord s).extractLsb' 8 3 = s.clen ∧
    (carryWord s).extractLsb' 11 5 = 0 ∧ (carryWord s).extractLsb' 16 7 = s.wbits ∧ (carryWord s).getLsbD 23 = false ∧
    (carryWord s).extractLsb' 24 3 = s.wlen ∧ (carryWord s).extractLsb' 27 5 = 0 := by
  simp [-Nat.reduceAdd, -BitVec.getLsbD_eq_getElem, carryWord, BitVec.extractLsb'_append_eq_of_le,
    BitVec.extractLsb'_append_eq_of_add_le, BitVec.getLsbD_append]

/-- Settles O50: the words at the five addresses, and the codes of the three enumerated fields as numbers. -/
theorem statusWordFields : Obligations.StatusWordFields := by
  intro s
  obtain ⟨hresp, hxstate, hstatus⟩ := statusWord_fields s
  obtain ⟨hclass, hdstat⟩ := dstatWord_fields s
  exact ⟨⟨(congrArg BitVec.toNat hresp).trans s.resp.code_toNat,
      (congrArg BitVec.toNat hxstate).trans s.xstate.code_toNat, hstatus⟩,
    countWord_fields s, ⟨(congrArg BitVec.toNat hclass).trans s.dclass.code_toNat, hdstat⟩, ddataWord_fields s,
    carryWord_fields s⟩

end Sys2Proof.Machine
end

section
/-!
Bytes and words (spec/20_memory.md): where the wire bytes and the positions lie in a codeword (R51, R52), which byte each lane
of the read space holds (R56, R59), and what a host read changes (R57).
-/

namespace Sys2Proof.Machine

/-! ### The codeword word -/

/-- Bit `8 * (3 - m) + n` of four bytes side by side is bit `n` of byte `m`. -/
theorem getLsbD_append_bytes (b0 b1 b2 b3 : Byte) {n : Nat} (hn : n < 8) :
    (b0 ++ b1 ++ b2 ++ b3).getLsbD (24 + n) = b0.getLsbD n ∧ (b0 ++ b1 ++ b2 ++ b3).getLsbD (16 + n) = b1.getLsbD n ∧
    (b0 ++ b1 ++ b2 ++ b3).getLsbD (8 + n) = b2.getLsbD n ∧ (b0 ++ b1 ++ b2 ++ b3).getLsbD n = b3.getLsbD n := by
  simp only [BitVec.getLsbD_append]
  refine ⟨?_, ?_, ?_, ?_⟩
  · rw [if_neg (by omega), if_neg (by omega), if_neg (by omega)]; congr 1; omega
  · rw [if_neg (by omega), if_neg (by omega), if_pos (by omega)]; congr 1; omega
  · rw [if_neg (by omega), if_pos (by omega)]; congr 1; omega
  · rw [if_pos hn]

/-- The positions of each byte, its most significant bit first. -/
theorem codeBit_codewordOfBytes (b0 b1 b2 b3 : Byte) {k : Nat} (hk : k < 8) :
    codeBit (codewordOfBytes b0 b1 b2 b3) (1 + k) = b0.getLsbD (7 - k) ∧
    codeBit (codewordOfBytes b0 b1 b2 b3) (9 + k) = b1.getLsbD (7 - k) ∧
    codeBit (codewordOfBytes b0 b1 b2 b3) (17 + k) = b2.getLsbD (7 - k) ∧
    codeBit (codewordOfBytes b0 b1 b2 b3) (25 + k) = b3.getLsbD (7 - k) := by
  have bits := getLsbD_append_bytes b0 b1 b2 b3 (n := 7 - k) (by omega)
  have e0 : 32 - (1 + k) = 24 + (7 - k) := by omega
  have e1 : 32 - (9 + k) = 16 + (7 - k) := by omega
  have e2 : 32 - (17 + k) = 8 + (7 - k) := by omega
  have e3 : 32 - (25 + k) = 7 - k := by omega
  rw [codeBit, codeBit, codeBit, codeBit, e0, e1, e2, e3]
  exact bits

/-- The masks of the parity and of the data positions, over the 32 positions of a word. -/
theorem position_masks : ∀ k < 33, 1 ≤ k →
    (k ∈ parityPositions ↔ codeBit 0xD1010001 k = true) ∧ (k ∈ dataPositions ↔ codeBit 0x2EFEFFFE k = true) := by
  decide

/-- Settles O26: the bits of four bytes side by side, and the 32 positions one by one. -/
theorem positionsInWord : Obligations.PositionsInWord :=
  ⟨fun b0 b1 b2 b3 _ hk => codeBit_codewordOfBytes b0 b1 b2 b3 hk, fun k hk hk' => position_masks k (by omega) hk⟩

/-! ### The lanes of the read space -/

/-- A byte lane of an output word, the lower-indexed byte more significant. The widths stay sums (`-Nat.reduceAdd`), by which
the library finds a part of an append. -/
theorem obufWord_lane (s : State) (j : Nat) {r : Nat} (hr : r < 4) :
    (obufWord s j).extractLsb' (24 - 8 * r) 8 = obufLane s (4 * j + r) := by
  interval_cases r <;>
    simp [-Nat.reduceAdd, obufWord, BitVec.extractLsb'_append_eq_of_le, BitVec.extractLsb'_append_eq_of_add_le]

/-- The lane of OBUF index `i` in the word at its address. -/
theorem readWord_lane (s : State) {a : Byte} {i : Nat} (h : 0x40 ≤ a.toNat) (h' : a.toNat ≤ 0xA7)
    (hi : i / 4 = a.toNat - 0x40) : (readWord s a).extractLsb' (24 - 8 * (i % 4)) 8 = obufLane s i := by
  rw [readWord_obuf s h h', obufWord_lane s _ (Nat.mod_lt i (by decide)), ← hi, Nat.div_add_mod]

/-- Settles O51: a reserved address, then the lane of an index below OCNT and of one that is not. -/
theorem readSpaceMap : Obligations.ReadSpaceMap := by
  intro s a
  refine ⟨fun h => readWord_reserved s (by omega) (by omega), fun i hlo hhi h h' => ?_⟩
  have hlane := readWord_lane s h h' (i := i) (by omega)
  exact ⟨fun b hi hb => hlane.trans (obufLane_byte hi hb), fun hi => hlane.trans (obufLane_draw hi)⟩

/-! ### Host reads -/

/-- A read finds the registers and the draw number of the state, whatever the host has still to do. -/
@[simp] theorem readWord_withHost (s : State) (es : List HostEvent) (a : Byte) :
    readWord (s.withHost es) a = readWord s a :=
  readWord_congr rfl a (.inl rfl)

/-- An idle block performs the read its host's next action makes: the word is on `rd_data`, every register is kept, and the
block is idle again. -/
theorem step_of_read {s : State} {a : Byte} {rest : List HostEvent} (hidle : s.inflight = none)
    (hhost : s.host = .read a :: rest) :
    ∃ t, step s = .next t ∧ t.block = s.block ∧ t.rdData = readWord s a ∧ t.inflight = none ∧ t.host = rest := by
  have hstep : step s = .next ((hostRead a (s.withHost rest)).withDone false) := by
    unfold step transact
    rw [hidle, hhost]
    rfl
  exact ⟨_, hstep, rfl, readWord_withHost s rest a, hidle, rfl⟩

/-- Settles O53: the second read finds the registers that the first one left as they were, so the two words can differ only
in a lane that is a draw. -/
theorem readHasNoSideEffect : Obligations.ReadHasNoSideEffect := by
  intro s a rest hidle hhost
  obtain ⟨t, hst, htblock, htword, htidle, hthost⟩ := step_of_read hidle hhost
  obtain ⟨u, htu, hublock, huword, -, huhost⟩ := step_of_read htidle hthost
  refine ⟨t, u, hst, htu, htblock, hublock.trans htblock, htword, huhost, ?_, ?_, ?_⟩ <;> rw [huword, htword]
  · exact fun hwritten => readWord_congr htblock a (.inr hwritten)
  · exact fun hout => readWord_congr htblock a (.inr fun i h h' => by omega)
  · intro i h h' hi hcount hwritten
    rw [readWord_lane t h h' hi, readWord_lane s h h' hi]
    exact obufLane_congr htblock i (.inr ⟨hcount, hwritten⟩)

end Sys2Proof.Machine
end

section
/-!
The encoding of commands (spec/30_encoding.md): which raw commands the decoder takes for a command (R71 to R73, R76), which it
refuses and what becomes of those (R74), and what a listing line stands for (R77).
-/

namespace Sys2Proof.Machine

/-! ### The legal commands -/

/-- The argument of `c` holds the operand of `i`: in its field `LEN` for BBEGIN, in all its bits for CWPUSH and CWDEC, and in
none for a command that ignores its argument (spec/30_encoding.md R72, R73). -/
def holdsOperand (c : Command) : Instr → Prop
  | .bbegin len => len = c.len
  | .cwpush _ w | .cwdec w => w = c.arg
  | .nop | .xrst | .bcommit | .babort => True

/-- The decoder takes a raw command for `i` exactly when it has the byte of `i` and holds its operand. -/
theorem decodeCmd_eq_ok_iff {c : Command} {i : Instr} :
    decodeCmd c = .ok i ↔ c.cmd = (encode i).cmd ∧ holdsOperand c i := by
  constructor
  · intro h
    obtain ⟨hcmd, e⟩ | ⟨hcmd, e⟩ | ⟨hcmd, e⟩ | ⟨hcmd, e⟩ | ⟨hcmd, e⟩ | ⟨hcmd, e⟩ | ⟨hcmd, e⟩ | ⟨hcmd, e⟩ | ⟨-, _, e⟩ :=
      decodeCmd_cases c <;> cases e.symm.trans h
    · exact ⟨hcmd, trivial⟩
    · exact ⟨hcmd, trivial⟩
    · exact ⟨hcmd, rfl⟩
    · exact ⟨hcmd, rfl⟩
    · exact ⟨hcmd, rfl⟩
    · exact ⟨hcmd, trivial⟩
    · exact ⟨hcmd, trivial⟩
    · exact ⟨hcmd, rfl⟩
  · obtain ⟨b, a⟩ := c
    rintro ⟨hcmd, hop⟩
    cases i with
    | nop => cases hcmd; exact decodeCmd_nop a
    | xrst => cases hcmd; exact decodeCmd_xrst a
    | bbegin len => cases hcmd; cases hop; exact decodeCmd_bbegin a
    | cwpush last w =>
      cases last <;> cases hcmd <;> cases hop
      · exact decodeCmd_cwpush a
      · exact decodeCmd_cwpushL a
    | bcommit => cases hcmd; exact decodeCmd_bcommit a
    | babort => cases hcmd; exact decodeCmd_babort a
    | cwdec w => cases hcmd; cases hop; exact decodeCmd_cwdec a

theorem holdsOperand_encode (i : Instr) : holdsOperand (encode i) i := by
  cases i with
  | bbegin len =>
    have hlen : (encode (.bbegin len)).len = (len.setWidth 32).setWidth 16 :=
      (BitVec.setWidth_eq_extractLsb' (by decide)).symm
    simp [holdsOperand, hlen]
  | cwpush | cwdec => rfl
  | nop | xrst | bcommit | babort => trivial

/-- `LEN` in a word of its own is the argument under the mask of the 16 low bits. -/
theorem setWidth_len (c : Command) : c.len.setWidth 32 = c.arg &&& 0x0000FFFF := by
  apply BitVec.eq_of_toNat_eq
  rw [BitVec.toNat_setWidth_of_le (by decide), BitVec.toNat_and]
  exact (Nat.and_two_pow_sub_one_eq_mod c.arg.toNat 16).symm

/-- Settles O1: the byte and the operand that `decodeCmd_eq_ok_iff` asks for are those `encode` writes. -/
theorem decodeEncodeRoundTrip : Obligations.DecodeEncodeRoundTrip := by
  refine ⟨fun i => decodeCmd_eq_ok_iff.2 ⟨rfl, holdsOperand_encode i⟩, fun c i hdec => ?_⟩
  obtain ⟨hcmd, hop⟩ := decodeCmd_eq_ok_iff.1 hdec
  refine ⟨hcmd.symm, ?_⟩
  cases i with
  | bbegin len => cases hop; exact setWidth_len c
  | cwpush | cwdec => exact hop
  | nop | xrst | bcommit | babort => rfl

/-- The mask of CWPUSH leaves the bit `L` open, so the row takes the two bytes that differ in it. -/
theorem and_cwpush_mask_iff (b : Byte) : b &&& 0xEF = 0x03 ↔ b = if b.getLsbD 4 then 0x13 else 0x03 := by
  revert b
  decide +kernel

/-- Settles O2: under its mask a row takes exactly the bytes its command is encoded by, and the operand fields it names are
those of the argument. -/
theorem opcodeMapSelects : Obligations.OpcodeMapSelects := by
  intro c
  have hfull : c.cmd &&& 0xFF = c.cmd := BitVec.and_allOnes
  have hlen : c.arg.setWidth 16 = c.len := BitVec.setWidth_eq_extractLsb' (by decide)
  simp only [hfull, hlen, and_cwpush_mask_iff, decodeCmd_eq_ok_iff, holdsOperand, encode, and_true]

/-! ### The illegal bytes -/

/-- The bytes R74 calls illegal are the ones outside its list of 8: the argument plays no part, so 256 cases. -/
theorem wellFormed_eq_false_iff (c : Command) :
    c.wellFormed = false ↔ c.rsv ≠ 0 ∨ 7 ≤ c.op.toNat ∨ (c.flagL = true ∧ c.op ≠ 3) := by
  have bytes : ∀ b : Byte, (⟨b, 0⟩ : Command).wellFormed = false ↔
      (⟨b, 0⟩ : Command).rsv ≠ 0 ∨ 7 ≤ (⟨b, 0⟩ : Command).op.toNat ∨
        ((⟨b, 0⟩ : Command).flagL = true ∧ (⟨b, 0⟩ : Command).op ≠ 3) := by
    decide +kernel
  exact bytes c.cmd

theorem wellFormed_encode (i : Instr) : (encode i).wellFormed = true := by
  cases i with
  | nop => exact Laws.LegalEncoding.nop.1
  | xrst => exact Laws.LegalEncoding.xrst.1
  | bbegin len => exact (Laws.LegalEncoding.bbegin len).1
  | cwpush last w => exact (Laws.LegalEncoding.cwpush last w).1
  | bcommit => exact Laws.LegalEncoding.bcommit.1
  | babort => exact Laws.LegalEncoding.babort.1
  | cwdec w => exact (Laws.LegalEncoding.cwdec w).1

/-- The decoder refuses exactly the illegal bytes: what it takes for a command has the byte that `encode` writes. -/
theorem decodeCmd_error_iff (c : Command) : (∃ e, decodeCmd c = .error e) ↔ c.wellFormed = false := by
  constructor
  · rintro ⟨e, he⟩
    simpa [he] using decodeCmd_cases c
  · intro hbad
    cases hdec : decodeCmd c with
    | error e => exact ⟨e, rfl⟩
    | ok i =>
      obtain ⟨hcmd, -⟩ := decodeCmd_eq_ok_iff.1 hdec
      have hlegal : c.wellFormed = true := by
        rw [Command.wellFormed, hcmd]
        exact wellFormed_encode i
      exact absurd hlegal (by simp [hbad])

/-- An illegal command writes RESP and nothing else. -/
theorem performCommand_of_illegal {c : Command} (hbad : c.wellFormed = false) (s : State) :
    performCommand c s = .next (s.withResp .illegal) := by
  obtain ⟨e, he⟩ := (decodeCmd_error_iff c).2 hbad
  unfold performCommand
  rw [he]
  rfl

/-- Settles O3: the two descriptions of the illegal bytes, their count, and the step that completes the rejection. -/
theorem illegalByteRejected : Obligations.IllegalByteRejected := by
  refine ⟨fun c => ⟨(decodeCmd_error_iff c).trans (wellFormed_eq_false_iff c), decodeCmd_error_iff c⟩, by decide +kernel, ?_⟩
  intro s cmd arg rest hidle hhost hbad
  have hrest : (s.withHost rest).withInflight none = s.withHost rest := State.withInflight_none_of_idle hidle
  rw [step_of_command hidle hhost, completeCommand, hrest, performCommand_of_illegal hbad]
  rfl

/-! ### Words and listing lines of the test programs -/

/-- Settles O4: each word by its row of the opcode map, the three illegal ones by the decoder's tests. -/
theorem listedWordsDecode : Obligations.ListedWordsDecode :=
  ⟨decodeCmd_nop _, decodeCmd_xrst _, decodeCmd_bbegin _, decodeCmd_cwpush _, decodeCmd_cwpushL _, decodeCmd_bcommit _,
    decodeCmd_babort _, decodeCmd_cwdec _, rfl, rfl, rfl⟩

/-- Settles O5: each line's byte is its row's, and an operand in range is the value of the bits written for it. -/
theorem listingAssembles : Obligations.ListingAssembles := by
  intro l hl
  cases l with
  | nop => exact decodeCmd_nop _
  | xrst => exact decodeCmd_xrst _
  | bcommit => exact decodeCmd_bcommit _
  | babort => exact decodeCmd_babort _
  | bbegin n =>
    have hn : n < 2 ^ 16 := of_decide_eq_true hl
    exact ⟨_, decodeCmd_bbegin _, by simp; omega⟩
  | cwpush n => exact ⟨_, decodeCmd_cwpush _, Nat.mod_eq_of_lt (of_decide_eq_true hl)⟩
  | cwpushL n => exact ⟨_, decodeCmd_cwpushL _, Nat.mod_eq_of_lt (of_decide_eq_true hl)⟩
  | cwdec n => exact ⟨_, decodeCmd_cwdec _, Nat.mod_eq_of_lt (of_decide_eq_true hl)⟩
  | rd n => exact Nat.mod_eq_of_lt (of_decide_eq_true hl)

end Sys2Proof.Machine
end

section
/-!
Sums of bits and bits of data, for the codeword decoder (spec/40_codeword_decoder.md): exclusive-ors over lists of positions,
popcounts (R92, R95), and the data as a bit sequence in ascending position order (R97).
-/

namespace Sys2Proof.Machine

/-! ### Exclusive-or over a list -/

@[simp] theorem xorAll_append (as bs : List Bool) : xorAll (as ++ bs) = (xorAll as ^^ xorAll bs) := by
  induction as with
  | nil => simp
  | cons a as ih => simp [ih]

theorem xorAll_reverse (bs : List Bool) : xorAll bs.reverse = xorAll bs := by
  induction bs with
  | nil => rfl
  | cons b bs ih => simp [ih, Bool.xor_comm]

/-- A filter is a sum with the entries outside it at 0. -/
theorem xorAll_map_filter (f g : Nat → Bool) (l : List Nat) :
    xorAll ((l.filter g).map f) = xorAll (l.map fun k => g k && f k) := by
  induction l with
  | nil => rfl
  | cons k l ih => cases h : g k <;> simp [h, ih]

/-- The sum over a list is odd exactly when an odd number of its entries are set. -/
theorem xorAll_map_eq_countP (f : Nat → Bool) (l : List Nat) : xorAll (l.map f) = (l.countP f % 2 == 1) := by
  induction l with
  | nil => rfl
  | cons k l ih =>
    rw [List.map_cons, xorAll_cons, ih, List.countP_cons]
    obtain h | h := Nat.mod_two_eq_zero_or_one (l.countP f) <;> cases f k <;> simp [h, Nat.add_mod]

/-- A bit of an exclusive-or of numbers is the exclusive-or of their bits. -/
theorem testBit_foldr_xor (l : List Nat) (i : Nat) :
    (l.foldr (· ^^^ ·) 0).testBit i = xorAll (l.map fun k => k.testBit i) := by
  induction l with
  | nil => simp
  | cons k l ih => simp [ih]

/-! ### Bit sequences -/

theorem bitSeq_succ (n v : Nat) (b : Bool) : bitSeq (n + 1) (2 * v + b.toNat) = bitSeq n v ++ [b] := by
  have hbit : 2 * v + b.toNat = Nat.bit b v := (Nat.bit_val b v).symm
  rw [hbit, bitSeq, bitSeq, List.range_succ, List.map_append, List.map_singleton]
  congr 1
  · refine List.map_congr_left fun i hi => ?_
    have hi : i < n := List.mem_range.1 hi
    rw [show n + 1 - 1 - i = n - 1 - i + 1 by omega, Nat.testBit_bit_succ]
  · rw [show n + 1 - 1 - n = 0 by omega, Nat.testBit_bit_zero]

/-- The number of a sequence has the sequence as its bits. -/
theorem bitSeq_seqNat (bs : List Bool) : bitSeq bs.length (seqNat bs) = bs := by
  induction bs using List.reverseRecOn with
  | nil => rfl
  | append_singleton bs b ih =>
    have hsnoc : seqNat (bs ++ [b]) = 2 * seqNat bs + b.toNat := by simp [seqNat]
    rw [List.length_append, List.length_singleton, hsnoc, bitSeq_succ, ih]

/-- The sequence of a concatenation is the one sequence after the other. -/
theorem bitSeq_append {m n : Nat} (x : BitVec m) (y : BitVec n) :
    bitSeq (m + n) (x ++ y).toNat = bitSeq m x.toNat ++ bitSeq n y.toNat := by
  rw [bitSeq, bitSeq, bitSeq, List.range_add, List.map_append, List.map_map]
  congr 1 <;> refine List.map_congr_left fun i hi => ?_ <;> have hi := List.mem_range.1 hi
  · rw [BitVec.testBit_toNat, BitVec.testBit_toNat, BitVec.getLsbD_append, if_neg (by omega)]
    congr 1; omega
  · rw [Function.comp_apply, BitVec.testBit_toNat, BitVec.testBit_toNat, BitVec.getLsbD_append, if_pos (by omega)]
    congr 1; omega

/-- Consecutive positions are a field of the word. -/
theorem map_codeBit_range' (w : Word) {k n : Nat} (h : k + n ≤ 33) :
    (List.range' k n).map (codeBit w) = bitSeq n (w.extractLsb' (33 - k - n) n).toNat := by
  rw [List.range'_eq_map_range, List.map_map, bitSeq]
  refine List.map_congr_left fun i hi => ?_
  have hi : i < n := List.mem_range.1 hi
  rw [BitVec.testBit_toNat, BitVec.getLsbD_extractLsb', decide_eq_true (by omega), Bool.true_and,
    Function.comp_apply, codeBit]
  congr 1; omega

theorem dataSeq_eq_map (d : Data) : dataSeq d = (List.range 26).map fun i => d.getLsbD (25 - i) := rfl

/-- Data with the same sequence are the same. -/
theorem dataSeq_injective : Function.Injective dataSeq := by
  intro d e h
  rw [dataSeq_eq_map, dataSeq_eq_map, List.map_inj_left] at h
  refine BitVec.eq_of_getLsbD_eq fun i hi => ?_
  have hbit := h (25 - i) (List.mem_range.2 (by omega))
  rwa [show 25 - (25 - i) = i by omega] at hbit

/-! ### The data positions -/

/-- The position of the `i`-th bit of the decoded sequence. -/
def dataPosition (i : Nat) : Nat := dataPositions.getD i 0

theorem dataPositions_eq_map : dataPositions = (List.range 26).map dataPosition := by decide

theorem mem_dataPositions_range : ∀ k ∈ dataPositions, 1 ≤ k ∧ k ≤ 32 := by decide

theorem dataPosition_range {i : Nat} (hi : i < 26) : 1 ≤ dataPosition i ∧ dataPosition i ≤ 32 :=
  mem_dataPositions_range _ (dataPositions_eq_map ▸ List.mem_map_of_mem (List.mem_range.2 hi))

theorem dataPosition_inj : ∀ i < 26, ∀ j < 26, dataPosition i = dataPosition j ↔ i = j := by decide

theorem dataSeq_extractData (w : Word) : dataSeq (extractData w) = dataPositions.map (codeBit w) := by
  have hfold : extractData w = BitVec.ofNat 26 (seqNat (dataPositions.map (codeBit w))) := by
    rw [extractData, seqNat, List.foldl_map]
  have hseq : ∀ n, dataSeq (BitVec.ofNat 26 n) = bitSeq 26 n := fun n =>
    List.map_congr_left fun i hi => by
      have hi : i < 26 := List.mem_range.1 hi
      rw [BitVec.toNat_ofNat, Nat.testBit_mod_two_pow]
      simp; omega
  have hlen : (dataPositions.map (codeBit w)).length = 26 := by
    rw [List.length_map]; rfl
  rw [hfold, hseq, ← hlen, bitSeq_seqNat]

/-- Two words have the same data exactly when they agree at the data positions. -/
theorem extractData_eq_iff {v w : Word} :
    extractData v = extractData w ↔ ∀ k ∈ dataPositions, codeBit v k = codeBit w k := by
  rw [← dataSeq_injective.eq_iff, dataSeq_extractData, dataSeq_extractData, List.map_inj_left]

/-- A flip outside the data positions leaves the data alone. -/
theorem extractData_flipPosition (w : Word) {k : Nat} (hk : 1 ≤ k) (hk' : k ≤ 32) (hout : k ∉ dataPositions) :
    extractData (flipPosition w k) = extractData w := by
  refine extractData_eq_iff.2 fun j hj => ?_
  obtain ⟨hj1, hj32⟩ := mem_dataPositions_range j hj
  have hne : j ≠ k := fun e => hout (e ▸ hj)
  simp [codeBit_flipPosition w hk hk' hj1 hj32, hne]

/-- Settles O30: the data positions are four runs of consecutive positions, each a field of the word. -/
theorem dataInWordTerms : Obligations.DataInWordTerms := by
  refine fun w => ⟨dataSeq_injective ?_, dataSeq_extractData w⟩
  have hruns : dataPositions = List.range' 3 1 ++ List.range' 5 3 ++ List.range' 9 7 ++ List.range' 17 15 := by decide
  rw [dataSeq_extractData, hruns]
  change _ = bitSeq (1 + 3 + 7 + 15) _
  rw [bitSeq_append, bitSeq_append, bitSeq_append]
  rw [List.map_append, List.map_append, List.map_append, map_codeBit_range' w (by decide), map_codeBit_range' w (by decide),
    map_codeBit_range' w (by decide), map_codeBit_range' w (by decide)]

end Sys2Proof.Machine
end

section
/-!
The parities and the syndrome in the other terms of spec/40_codeword_decoder.md: masks (R92, R95) and positions (R94).
-/

namespace Sys2Proof.Machine

/-! ### Parities as popcounts -/

/-- The overall parity counts the same bits as the popcount, from the other end. -/
theorem overallParity_eq_wordParity (w : Word) : overallParity w = wordParity w := by
  have hpos : (List.range' 1 32).map (32 - ·) = (List.range 32).reverse := by decide
  have hbits : (List.range' 1 32).map (codeBit w) = ((List.range 32).map w.getLsbD).reverse := by
    rw [← List.map_reverse, ← hpos, List.map_map]; rfl
  rw [overallParity, hbits, xorAll_reverse, xorAll_map_eq_countP, wordParity]

/-- The parity of a group is that of the word under the group's mask. -/
theorem groupParity_of_mask {m : Word} {p : Nat} (h : groupPositions p = (List.range' 1 32).filter (codeBit m)) (w : Word) :
    groupParity w p = wordParity (w &&& m) := by
  have hbits : codeBit (w &&& m) = fun k => codeBit m k && codeBit w k := by
    funext k
    rw [codeBit, BitVec.getLsbD_and, Bool.and_comm]
    rfl
  rw [← overallParity_eq_wordParity, overallParity, hbits, ← xorAll_map_filter, ← h, groupParity]

/-- Settles O27: the masks and the windows list the positions of each group. -/
theorem parityMasks : Obligations.ParityMasks := by
  refine ⟨fun w => ⟨?_, ?_, ?_, ?_, ?_, overallParity_eq_wordParity w⟩, by decide⟩ <;>
    exact groupParity_of_mask (by decide +kernel) w

/-! ### The syndrome -/

theorem toNat_syndrome (w : Word) :
    (syndrome w).toNat = (groupParity w 1).toNat + 2 * (groupParity w 2).toNat + 4 * (groupParity w 4).toNat +
      8 * (groupParity w 8).toNat + 16 * (groupParity w 16).toNat := by
  have hle : ∀ p, (groupParity w p).toNat ≤ 1 := fun p => Bool.toNat_le _
  have h1 := hle 1
  have h2 := hle 2
  have h4 := hle 4
  have h8 := hle 8
  have h16 := hle 16
  rw [syndrome_eq, BitVec.toNat_ofNat, Nat.mod_eq_of_lt (by omega)]

/-- The bits of the syndrome are the group parities. -/
theorem testBit_syndrome (w : Word) {i : Nat} (hi : i < 5) : (syndrome w).toNat.testBit i = groupParity w (2 ^ i) := by
  have hbits : ∀ a b c d e : Bool,
      let n := a.toNat + 2 * b.toNat + 4 * c.toNat + 8 * d.toNat + 16 * e.toNat
      n.testBit 0 = a ∧ n.testBit 1 = b ∧ n.testBit 2 = c ∧ n.testBit 3 = d ∧ n.testBit 4 = e := by decide
  obtain ⟨b0, b1, b2, b3, b4⟩ :=
    hbits (groupParity w 1) (groupParity w 2) (groupParity w 4) (groupParity w 8) (groupParity w 16)
  rw [toNat_syndrome]
  interval_cases i
  · exact b0
  · exact b1
  · exact b2
  · exact b3
  · exact b4

/-- The group of weight `2 ^ i` is the positions of 1..31 with bit `i`. -/
theorem groupPositions_two_pow (i : Nat) : groupPositions (2 ^ i) = (List.range' 1 31).filter (·.testBit i) := by
  refine List.filter_congr fun k _ => ?_
  cases h : k.testBit i <;> simp [Nat.and_two_pow, h]

/-- A bit of the exclusive-or of the set positions is the parity of a group. -/
theorem testBit_foldr_positions (w : Word) (i : Nat) :
    (((List.range' 1 31).filter (codeBit w)).foldr (· ^^^ ·) 0).testBit i = groupParity w (2 ^ i) := by
  simp only [testBit_foldr_xor, groupParity, groupPositions_two_pow, xorAll_map_filter, Bool.and_comm]

/-- Weights above 16 have no positions. -/
theorem groupParity_two_pow_of_le (w : Word) {i : Nat} (hi : 5 ≤ i) : groupParity w (2 ^ i) = false := by
  have hnone : groupPositions (2 ^ i) = [] := by
    rw [groupPositions_two_pow, List.filter_eq_nil_iff]
    intro k hk
    obtain ⟨hk1, hk32⟩ := List.mem_range'_1.1 hk
    have hlt : k < 2 ^ i := lt_of_lt_of_le (by omega) (Nat.pow_le_pow_right (by decide) hi)
    rw [Nat.testBit_lt_two_pow hlt]
    decide
  rw [groupParity, hnone]
  rfl

/-- Settles O28: both numbers have the group parities as their bits. -/
theorem syndromeIsXorOfPositions : Obligations.SyndromeIsXorOfPositions := by
  refine fun w => ⟨toNat_syndrome w, Nat.eq_of_testBit_eq fun i => ?_⟩
  rw [testBit_foldr_positions]
  by_cases hi : i < 5
  · exact testBit_syndrome w hi
  · have hi : 5 ≤ i := by omega
    have hlt : (syndrome w).toNat < 2 ^ i := lt_of_lt_of_le (syndrome w).isLt (Nat.pow_le_pow_right (by decide) hi)
    rw [groupParity_two_pow_of_le w hi, Nat.testBit_lt_two_pow hlt]

end Sys2Proof.Machine
end

section
/-!
Decode on error-free and on damaged codewords (spec/40_codeword_decoder.md R96 to R103), and the encoder its rules imply.
-/

namespace Sys2Proof.Machine

/-! ### The classes -/

theorem decodeCodeword_clean {w : Word} (hsyn : syndrome w = 0) (hpar : overallParity w = false) :
    decodeCodeword w = ⟨.clean, false, 0, 0, extractData w⟩ := by
  simpa [hsyn, hpar] using decodeCodeword_cases w

theorem decodeCodeword_p32 {w : Word} (hsyn : syndrome w = 0) (hpar : overallParity w = true) :
    decodeCodeword w = ⟨.p32, true, 0, 32, extractData w⟩ := by
  simpa [hsyn, hpar] using decodeCodeword_cases w

theorem decodeCodeword_corrected {w : Word} (hsyn : syndrome w ≠ 0) (hpar : overallParity w = true) :
    decodeCodeword w =
      ⟨.corrected, true, syndrome w, (syndrome w).setWidth 6, extractData (flipPosition w (syndrome w).toNat)⟩ := by
  have hne : ¬ syndrome w = 0#5 := hsyn
  simpa [hne, hpar] using decodeCodeword_cases w

theorem decodeCodeword_uncorr {w : Word} (hsyn : syndrome w ≠ 0) (hpar : overallParity w = false) :
    decodeCodeword w = ⟨.uncorr, false, syndrome w, 0, 0⟩ := by
  have hne : ¬ syndrome w = 0#5 := hsyn
  simpa [hne, hpar] using decodeCodeword_cases w

/-- An error-free codeword is a word whose groups and overall parity all hold. -/
theorem clean_iff {w : Word} : (decodeCodeword w).cls = .clean ↔ syndrome w = 0 ∧ overallParity w = false := by
  rcases decodeCodeword_cases w with ⟨-, hpar, e⟩ | ⟨hsyn, -, e⟩ | ⟨-, hpar, e⟩ | ⟨hsyn, hpar, e⟩
  · simp [e, hpar]
  · simpa [e] using fun h => absurd h hsyn
  · simp [e, hpar]
  · simp [e, hsyn, hpar]

/-- Every decode reports the two values its class is made of. -/
theorem decodeCodeword_flags (w : Word) :
    (decodeCodeword w).syn = syndrome w ∧ (decodeCodeword w).opf = overallParity w := by
  unfold decodeCodeword
  dsimp only
  split_ifs <;> exact ⟨rfl, rfl⟩

/-- Settles O29: one class after the other. -/
theorem classTable : Obligations.ClassTable := by
  intro w
  obtain ⟨hsyn, hopf⟩ := decodeCodeword_flags w
  refine ⟨hsyn, hopf, fun hsyn hpar => ?_, fun hsyn hpar => ?_, fun hsyn hpar => ?_, fun hsyn hpar => ?_⟩
  · rw [decodeCodeword_clean hsyn hpar]; exact ⟨rfl, rfl, rfl⟩
  · rw [decodeCodeword_p32 hsyn hpar]; exact ⟨rfl, rfl, rfl⟩
  · rw [decodeCodeword_corrected hsyn hpar]; exact ⟨rfl, BitVec.toNat_setWidth_of_le (by decide), rfl⟩
  · rw [decodeCodeword_uncorr hsyn hpar]; exact ⟨rfl, rfl, rfl⟩

/-! ### Words with flipped positions -/

theorem syndrome_flipPosition_32 (w : Word) : syndrome (flipPosition w 32) = syndrome w := by
  rw [syndrome_flipPosition w (by decide) (by decide)]
  exact BitVec.xor_zero

theorem groupParities_not_data : ∀ p ∈ groupParities, 1 ≤ p ∧ p ≤ 31 ∧ p ∉ dataPositions := by decide

/-- Settles O31: position 32 is in no group, and a group parity position is no data position. -/
theorem decodeCornerCases : Obligations.DecodeCornerCases := by
  refine ⟨fun w => ⟨syndrome_flipPosition_32 w, overallParity_flipPosition w (by decide) (by decide)⟩,
    fun w hsyn hpar => ?_, by decide +kernel, by decide +kernel⟩
  obtain ⟨hpos, hle, hout⟩ := groupParities_not_data _ hsyn
  have hne : syndrome w ≠ 0 := fun e => by simp [e] at hpos
  rw [decodeCodeword_corrected hne hpar]
  exact ⟨rfl, extractData_flipPosition w hpos (by omega) hout⟩

/-- Settles O32: from an error-free codeword a flip gives the syndrome its position, and the correction undoes it. -/
theorem singleErrorCorrected : Obligations.SingleErrorCorrected := by
  intro w hclean k hk hk'
  obtain ⟨hsyn, hpar⟩ := clean_iff.1 hclean
  have hsyn' : syndrome (flipPosition w k) = BitVec.ofNat 5 k := by
    simp [syndrome_flipPosition w hk hk', hsyn]
  have hpar' : overallParity (flipPosition w k) = true := by
    rw [overallParity_flipPosition w hk hk', hpar]; rfl
  rw [decodeCodeword_clean hsyn hpar]
  obtain rfl | hlt := eq_or_lt_of_le hk'
  · rw [decodeCodeword_p32 hsyn' hpar']
    exact ⟨extractData_flipPosition w (by decide) (by decide) (by decide), by omega, fun _ => ⟨rfl, rfl⟩⟩
  · have hnum : (syndrome (flipPosition w k)).toNat = k := by
      rw [hsyn', BitVec.toNat_ofNat, Nat.mod_eq_of_lt (by omega)]
    have hne : syndrome (flipPosition w k) ≠ 0 := fun e => by simp [e] at hnum; omega
    rw [decodeCodeword_corrected hne hpar', hnum, flipPosition_flipPosition]
    exact ⟨rfl, fun _ => ⟨rfl, (BitVec.toNat_setWidth_of_le (by decide)).trans hnum⟩, by omega⟩

/-- Settles O33: two flips leave the overall parity as it was and move the syndrome by two different numbers. -/
theorem doubleErrorDetected : Obligations.DoubleErrorDetected := by
  intro w hclean a b ha ha' hb hb' hab
  obtain ⟨hsyn, hpar⟩ := clean_iff.1 hclean
  have hsyn' : syndrome (flipPosition (flipPosition w a) b) ≠ 0 := by
    rw [syndrome_flipPosition _ hb hb', syndrome_flipPosition w ha ha', hsyn]
    intro e
    have heq : BitVec.ofNat 5 a = BitVec.ofNat 5 b := by simpa using e
    have hmod : a % 32 = b % 32 := by simpa using congrArg BitVec.toNat heq
    omega
  have hpar' : overallParity (flipPosition (flipPosition w a) b) = false := by
    rw [overallParity_flipPosition _ hb hb', overallParity_flipPosition w ha ha', hpar]; rfl
  rw [decodeCodeword_uncorr hsyn' hpar']

/-- Words that differ at position 3, a data position, have different data. -/
theorem extractData_ne_of_three {v w : Word} (h : codeBit v 3 ≠ codeBit w 3) : extractData v ≠ extractData w :=
  fun e => h (extractData_eq_iff.1 e 3 (by decide))

/-- Settles O34: the flipped positions add up to 1 or to 0, and position 3 is wrong in the data that are taken. -/
theorem designLimit : Obligations.DesignLimit := by
  intro w hclean
  obtain ⟨hsyn, hpar⟩ := clean_iff.1 hclean
  rw [decodeCodeword_clean hsyn hpar]
  refine ⟨?_, ?_, ?_⟩
  · have hsyn' : syndrome (flipPosition (flipPosition (flipPosition w 3) 5) 7) = 1 := by
      simp [syndrome_flipPosition, hsyn]
    have hpar' : overallParity (flipPosition (flipPosition (flipPosition w 3) 5) 7) = true := by
      simp [overallParity_flipPosition, hpar]
    rw [decodeCodeword_corrected (by rw [hsyn']; decide) hpar', hsyn']
    exact ⟨rfl, rfl, extractData_ne_of_three (by simp [codeBit_flipPosition])⟩
  · have hsyn' : syndrome (flipPosition (flipPosition (flipPosition w 3) 5) 6) = 0 := by
      simp [syndrome_flipPosition, hsyn]
    have hpar' : overallParity (flipPosition (flipPosition (flipPosition w 3) 5) 6) = true := by
      simp [overallParity_flipPosition, hpar]
    rw [decodeCodeword_p32 hsyn' hpar']
    exact ⟨rfl, extractData_ne_of_three (by simp [codeBit_flipPosition])⟩
  · have hsyn' : syndrome (flipPosition (flipPosition (flipPosition (flipPosition w 3) 5) 6) 32) = 0 := by
      simp [syndrome_flipPosition, hsyn]
    have hpar' : overallParity (flipPosition (flipPosition (flipPosition (flipPosition w 3) 5) 6) 32) = false := by
      simp [overallParity_flipPosition, hpar]
    rw [decodeCodeword_clean hsyn' hpar']
    exact ⟨rfl, extractData_ne_of_three (by simp [codeBit_flipPosition])⟩

/-! ### The encoder -/

/-- A flip under a condition adds the condition to its position. -/
theorem codeBit_ite_flipPosition (w : Word) (b : Bool) {k j : Nat} (hk : 1 ≤ k) (hk' : k ≤ 32) (hj : 1 ≤ j)
    (hj' : j ≤ 32) : codeBit (if b then flipPosition w k else w) j = (codeBit w j ^^ (b && decide (j = k))) := by
  cases b <;> simp [codeBit_flipPosition w hk hk' hj hj']

/-- The word with the first `n` bits of the decoded sequence of `d` at their positions. -/
def placeBits (d : Data) (n : Nat) : Word :=
  (List.range n).foldl (fun w i => if d.getLsbD (25 - i) then flipPosition w (dataPosition i) else w) 0

theorem placeData_eq (d : Data) : placeData d = placeBits d 26 := rfl

theorem placeBits_succ (d : Data) (n : Nat) :
    placeBits d (n + 1) = if d.getLsbD (25 - n) then flipPosition (placeBits d n) (dataPosition n) else placeBits d n := by
  rw [placeBits, List.range_succ, List.foldl_append]
  rfl

/-- Placing the first `n` bits sets their positions and no other data position. -/
theorem codeBit_placeBits (d : Data) {n i : Nat} (hn : n ≤ 26) (hi : i < 26) :
    codeBit (placeBits d n) (dataPosition i) = (decide (i < n) && d.getLsbD (25 - i)) := by
  obtain ⟨hi1, hi32⟩ := dataPosition_range hi
  induction n with
  | zero => simp [placeBits, codeBit]
  | succ n ih =>
    obtain ⟨hn1, hn32⟩ := dataPosition_range (i := n) (by omega)
    have hinj := dataPosition_inj i hi n (by omega)
    rw [placeBits_succ, codeBit_ite_flipPosition _ _ hn1 hn32 hi1 hi32, ih (by omega)]
    obtain rfl | hne := eq_or_ne i n
    · simp
    · simp [hinj, hne, show i < n + 1 ↔ i < n by omega]

theorem extractData_placeData (d : Data) : extractData (placeData d) = d := by
  apply dataSeq_injective
  rw [placeData_eq, dataSeq_extractData, dataPositions_eq_map, List.map_map, dataSeq_eq_map]
  refine List.map_congr_left fun i hi => ?_
  have hi : i < 26 := List.mem_range.1 hi
  rw [Function.comp_apply, codeBit_placeBits d (le_refl 26) hi, decide_eq_true hi, Bool.true_and]

/-- The word with the group of `p` made to hold by its parity bit. -/
def fixGroup (w : Word) (p : Nat) : Word := if groupParity w p then flipPosition w p else w

theorem encodeData_eq (d : Data) :
    encodeData d =
      let w := groupParities.foldl fixGroup (placeData d)
      if overallParity w then flipPosition w 32 else w := rfl

/-- A group parity position is in its own group alone. -/
theorem groupParity_flipPosition (w : Word) {p q : Nat} (hp : p ∈ groupParities) (hq : q ∈ groupParities) :
    groupParity (flipPosition w p) q = (groupParity w q ^^ decide (q = p)) := by
  have unit : ∀ p ∈ groupParities, ∀ q ∈ groupParities, groupParity (1#32 <<< (32 - p)) q = decide (q = p) := by
    decide +kernel
  rw [flipPosition, groupParity_xor, unit p hp q hq]

theorem groupParity_fixGroup (w : Word) {p q : Nat} (hp : p ∈ groupParities) (hq : q ∈ groupParities) :
    groupParity (fixGroup w p) q = (groupParity w q && decide (q ≠ p)) := by
  have hflip : groupParity (fixGroup w p) q = (groupParity w q ^^ (groupParity w p && decide (q = p))) := by
    rw [fixGroup]
    cases groupParity w p <;> simp [groupParity_flipPosition w hp hq]
  rw [hflip]
  obtain rfl | hne := eq_or_ne q p
  · simp
  · simp [hne]

/-- Fixing groups one after the other leaves the earlier ones fixed. -/
theorem groupParity_foldl_fixGroup {ps : List Nat} (hps : ∀ p ∈ ps, p ∈ groupParities) (w : Word) {q : Nat}
    (hq : q ∈ groupParities) : groupParity (ps.foldl fixGroup w) q = (groupParity w q && decide (q ∉ ps)) := by
  induction ps generalizing w with
  | nil => simp
  | cons p ps ih =>
    obtain ⟨hp, hps⟩ := List.forall_mem_cons.1 hps
    rw [List.foldl_cons, ih hps, groupParity_fixGroup w hp hq]
    simp [Bool.and_assoc]

theorem extractData_foldl_fixGroup {ps : List Nat} (hps : ∀ p ∈ ps, p ∈ groupParities) (w : Word) :
    extractData (ps.foldl fixGroup w) = extractData w := by
  induction ps generalizing w with
  | nil => rfl
  | cons p ps ih =>
    obtain ⟨hp, hps⟩ := List.forall_mem_cons.1 hps
    obtain ⟨hpos, hle, hout⟩ := groupParities_not_data p hp
    rw [List.foldl_cons, ih hps, fixGroup]
    split
    · exact extractData_flipPosition w hpos (by omega) hout
    · rfl

theorem syndrome_fixed (w : Word) : syndrome (groupParities.foldl fixGroup w) = 0 := by
  have hfixed : ∀ q ∈ groupParities, groupParity (groupParities.foldl fixGroup w) q = false := fun q hq => by
    rw [groupParity_foldl_fixGroup (fun _ h => h) w hq]
    simp [hq]
  rw [syndrome_eq, hfixed 1 (by decide), hfixed 2 (by decide), hfixed 4 (by decide), hfixed 8 (by decide),
    hfixed 16 (by decide)]
  rfl

/-- Settles O35: the parity bits make every group hold, position 32 the overall parity, and none of them holds data. -/
theorem encodedDataDecodes : Obligations.EncodedDataDecodes := by
  intro d
  have hsyn := syndrome_fixed (placeData d)
  have hdata := (extractData_foldl_fixGroup (fun _ h => h) (placeData d)).trans (extractData_placeData d)
  rw [encodeData_eq]
  generalize groupParities.foldl fixGroup (placeData d) = w at hsyn hdata ⊢
  dsimp only
  split
  case isTrue hpar =>
    have hpar' : overallParity (flipPosition w 32) = false := by
      rw [overallParity_flipPosition w (by decide) (by decide), hpar]; rfl
    rw [decodeCodeword_clean ((syndrome_flipPosition_32 w).trans hsyn) hpar',
      extractData_flipPosition w (by decide) (by decide) (by decide), hdata]
  case isFalse hpar => rw [decodeCodeword_clean hsyn (Bool.eq_false_iff.2 hpar), hdata]

/-! ### CWDEC -/

/-- Settles O17: the row of CWDEC, and its meaning. -/
theorem cwdecResult : Obligations.CwdecResult := ⟨decodeCmd_cwdec, fun _ _ => rfl⟩

end Sys2Proof.Machine
end

section
/-!
The bit-carry accumulator as a byte loop (spec/41_accumulator.md R111 to R115, R117): what the loop does on one sequence after
another, and `Accumulate` as one run of it.
-/

namespace Sys2Proof.Machine

/-! ### Sequences of bits and numbers -/

@[simp] theorem bitSeq_length (n v : Nat) : (bitSeq n v).length = n := by simp [bitSeq]

/-- The high bits of a sequence, then the low ones. -/
theorem bitSeq_add (m n v : Nat) : bitSeq (m + n) v = bitSeq m (v >>> n) ++ bitSeq n v := by
  rw [bitSeq, List.range_add, List.map_append, List.map_map]
  congr 1 <;> refine List.map_congr_left fun i hi => ?_ <;> have hi := List.mem_range.1 hi
  · rw [Nat.testBit_shiftRight]; congr 1; omega
  · rw [Function.comp_apply]; congr 1; omega

/-- Only the `n` low bits are in the sequence. -/
theorem bitSeq_mod (n v : Nat) : bitSeq n (v % 2 ^ n) = bitSeq n v := by
  refine List.map_congr_left fun i hi => ?_
  have hi : i < n := List.mem_range.1 hi
  rw [Nat.testBit_mod_two_pow, decide_eq_true (by omega), Bool.true_and]

theorem seqNat_bitSeq (n v : Nat) : seqNat (bitSeq n v) = v % 2 ^ n := by
  induction n generalizing v with
  | zero => rw [pow_zero, Nat.mod_one]; rfl
  | succ n ih =>
    have hlow : seqNat (bitSeq n (v >>> 1) ++ bitSeq 1 v) = 2 * seqNat (bitSeq n (v >>> 1)) + v % 2 := by
      obtain h | h := Nat.mod_two_eq_zero_or_one v <;> simp [seqNat, bitSeq, h]
    rw [bitSeq_add, hlow, ih, Nat.shiftRight_one, pow_succ', Nat.mod_mul, add_comm]

/-! ### The byte loop -/

/-- Fewer than 8 bits remain: the loop ends. -/
theorem packBytes_of_length_lt {bs : List Bool} (h : bs.length < 8) : packBytes bs = ([], bs) := by
  unfold packBytes
  split
  · simp at h; omega
  · rfl

/-- One round of the loop: 8 bits go out as a byte. -/
theorem packBytes_of_length_eq {bs : List Bool} (h : bs.length = 8) (rest : List Bool) :
    packBytes (bs ++ rest) = (BitVec.ofNat 8 (seqNat bs) :: (packBytes rest).1, (packBytes rest).2) := by
  match bs, h with
  | [_, _, _, _, _, _, _, _], _ => rfl

/-- The loop may stop anywhere and be taken up again with what remained. -/
theorem packBytes_append (xs ys : List Bool) :
    packBytes (xs ++ ys) =
      ((packBytes xs).1 ++ (packBytes ((packBytes xs).2 ++ ys)).1, (packBytes ((packBytes xs).2 ++ ys)).2) := by
  induction xs using packBytes.induct with
  | case1 b7 b6 b5 b4 b3 b2 b1 b0 rest ih => simp [packBytes, ih]
  | case2 rest hshort =>
    have hstop : packBytes rest = ([], rest) := by rw [packBytes]; exact hshort
    rw [hstop]; rfl

/-- The loop over the bits of a number: its bytes are the number's, from the top, and its low bits remain. -/
theorem packBytes_bitSeq (T v : Nat) :
    packBytes (bitSeq T v) =
      ((List.range (T / 8)).map fun j => BitVec.ofNat 8 (v >>> (T - 8 - 8 * j)), bitSeq (T % 8) v) := by
  induction T using Nat.strong_induction_on with
  | _ T ih =>
    by_cases hT : T < 8
    · rw [packBytes_of_length_lt (by simpa using hT), Nat.div_eq_of_lt hT, Nat.mod_eq_of_lt hT]; rfl
    · obtain ⟨n, rfl⟩ := Nat.exists_eq_add_of_le (Nat.le_of_not_lt hT)
      have hbyte : BitVec.ofNat 8 (seqNat (bitSeq 8 (v >>> n))) = BitVec.ofNat 8 (v >>> n) := by
        rw [seqNat_bitSeq]; apply BitVec.eq_of_toNat_eq; simp
      rw [bitSeq_add, packBytes_of_length_eq (by simp), ih n (by omega), hbyte, Nat.add_div_left n (by decide),
        Nat.add_mod_left, List.range_succ_eq_map, List.map_cons, List.map_map]
      congr 2
      · congr 2; omega
      · refine List.map_congr_left fun j _ => ?_
        rw [Function.comp_apply]; congr 2; omega

theorem packBytes_length (bs : List Bool) :
    (packBytes bs).1.length = bs.length / 8 ∧ (packBytes bs).2.length = bs.length % 8 := by
  rw [← bitSeq_seqNat bs, packBytes_bitSeq]
  simp

/-! ### Accumulate -/

@[simp] theorem carrySeq_length (len : BitVec 3) (bits : BitVec 7) : (carrySeq len bits).length = len.toNat :=
  bitSeq_length _ _

@[simp] theorem dataSeq_length (d : Data) : (dataSeq d).length = 26 := bitSeq_length _ _

/-- A leftover alone is less than a byte. -/
theorem packBytes_carrySeq (len : BitVec 3) (bits : BitVec 7) : packBytes (carrySeq len bits) = ([], carrySeq len bits) :=
  packBytes_of_length_lt (by simpa using len.isLt)

/-- The leftover sequence before the data is the sequence of the combined word (spec/41_accumulator.md R111). -/
theorem carrySeq_append_dataSeq (len : BitVec 3) (bits : BitVec 7) (d : Data) :
    carrySeq len bits ++ dataSeq d = bitSeq (len.toNat + 26) (combine len bits d).toNat := by
  have hlen := len.isLt
  have hcarry : carrySeq len bits = bitSeq len.toNat (bits.extractLsb' 0 len.toNat).toNat := by
    rw [BitVec.extractLsb'_toNat, Nat.shiftRight_zero, bitSeq_mod]; rfl
  rw [combine, BitVec.toNat_setWidth_of_le (by omega), bitSeq_append, hcarry, dataSeq]

/-- `Accumulate` of a non-final codeword is one run of the byte loop. -/
theorem packBytes_carrySeq_dataSeq (len : BitVec 3) (bits : BitVec 7) (d : Data) :
    packBytes (carrySeq len bits ++ dataSeq d) =
      ((accumulate len bits d false).bytes,
        carrySeq (accumulate len bits d false).len (accumulate len bits d false).bits) := by
  have hrest : (accumulate len bits d false).bits.toNat =
      (combine len bits d).toNat % 2 ^ ((len.toNat + 26) % 8) := by
    rw [accumulate, if_neg (by decide), BitVec.toNat_setWidth_of_le (by omega), BitVec.extractLsb'_toNat,
      Nat.shiftRight_zero]
  rw [carrySeq_append_dataSeq, packBytes_bitSeq, carrySeq, accumulate_len_nonfinal, hrest, bitSeq_mod, accumulate_bytes]
  rfl

/-- The zero scan of a final codeword (spec/41_accumulator.md R113): its output ends before the first zero byte. -/
theorem accumulate_final_scan (len : BitVec 3) (bits : BitVec 7) (d : Data) :
    let a := accumulate len bits d true
    a.adv ≤ a.bytes.length ∧ a.bytes[a.adv]?.getD 0 = 0 ∧ ∀ j, j < a.adv → ∃ b, a.bytes[j]? = some b ∧ b ≠ 0 := by
  intro a
  have hadv : a.adv = a.bytes.findIdx (· == 0) := rfl
  have hle : a.adv ≤ a.bytes.length := List.findIdx_le_length
  refine ⟨hle, ?_, fun j hj => ⟨a.bytes[j], List.getElem?_eq_getElem _, ?_⟩⟩
  · by_cases hfound : a.adv < a.bytes.length
    · rw [List.getElem?_eq_getElem hfound]
      exact eq_of_beq (List.findIdx_getElem (p := (· == 0)) (w := hfound))
    · rw [List.getElem?_eq_none (by omega)]; rfl
  · exact ne_of_beq_false (List.not_of_lt_findIdx (p := (· == 0)) (hadv ▸ hj))

/-- Settles O36: the bytes and the leftover are those of one run of the loop, and the final codeword has the zero scan. -/
theorem accumulateIsByteLoop : Obligations.AccumulateIsByteLoop := by
  intro len bits d last
  have hloop := packBytes_carrySeq_dataSeq len bits d
  refine ⟨?_, ?_, ?_⟩
  · rw [hloop, accumulate_bytes, accumulate_bytes]
  · rintro rfl
    exact ⟨(accumulate_bytes_length len bits d false).symm, by rw [hloop], accumulate_bits_lt len bits d false⟩
  · rintro rfl
    exact ⟨rfl, rfl, accumulate_final_scan len bits d⟩

@[simp] theorem accumulateAll_nil (len : BitVec 3) (bits : BitVec 7) : accumulateAll len bits [] = ([], len, bits) := rfl

theorem accumulateAll_cons (len : BitVec 3) (bits : BitVec 7) (d : Data) (ds : List Data) :
    accumulateAll len bits (d :: ds) =
      let a := accumulate len bits d false
      (a.bytes ++ (accumulateAll a.len a.bits ds).1, (accumulateAll a.len a.bits ds).2) := rfl

/-- Any number of codewords is one run of the loop over all their data: each takes it up with the leftover of the one
before. -/
theorem packBytes_carrySeq_stream (len : BitVec 3) (bits : BitVec 7) (ds : List Data) :
    packBytes (carrySeq len bits ++ ds.flatMap dataSeq) =
      ((accumulateAll len bits ds).1, carrySeq (accumulateAll len bits ds).2.1 (accumulateAll len bits ds).2.2) := by
  induction ds generalizing len bits with
  | nil => rw [List.flatMap_nil, List.append_nil, packBytes_carrySeq, accumulateAll_nil]
  | cons d ds ih =>
    rw [List.flatMap_cons, ← List.append_assoc, packBytes_append, packBytes_carrySeq_dataSeq, ih,
      accumulateAll_cons]

/-- Settles O38, by the one run that all the codewords make up. -/
theorem carryIdempotence : Obligations.CarryIdempotence := by
  intro len bits ds
  have hloop := packBytes_carrySeq_stream len bits ds
  exact ⟨by rw [hloop], by rw [hloop]⟩

/-- How many bytes and leftover bits a run of codewords gives: all that the leftover and their 26 bits each make up. -/
theorem accumulateAll_length (len : BitVec 3) (bits : BitVec 7) (ds : List Data) :
    (accumulateAll len bits ds).1.length = (len.toNat + 26 * ds.length) / 8 ∧
    (accumulateAll len bits ds).2.1.toNat = (len.toNat + 26 * ds.length) % 8 := by
  have hall : (carrySeq len bits ++ ds.flatMap dataSeq).length = len.toNat + 26 * ds.length := by
    simp [List.length_flatMap, mul_comm]
  obtain ⟨hbytes, hrest⟩ := packBytes_length (carrySeq len bits ++ ds.flatMap dataSeq)
  rw [packBytes_carrySeq_stream, hall] at hbytes hrest
  exact ⟨hbytes, (carrySeq_length _ _).symm.trans hrest⟩

theorem accumulateAll_bits_lt {len : BitVec 3} {bits : BitVec 7} (h : bits.toNat < 2 ^ len.toNat) (ds : List Data) :
    (accumulateAll len bits ds).2.2.toNat < 2 ^ (accumulateAll len bits ds).2.1.toNat := by
  induction ds generalizing len bits with
  | nil => exact h
  | cons d ds ih => exact ih (accumulate_bits_lt len bits d false)

/-- A legal leftover of no bits is the empty one. -/
theorem carry_eq_zero {len : BitVec 3} {bits : BitVec 7} (hlen : len.toNat = 0) (hbits : bits.toNat < 2 ^ len.toNat) :
    len = 0 ∧ bits = 0 := by
  rw [hlen] at hbits
  exact ⟨BitVec.eq_of_toNat_eq hlen, BitVec.eq_of_toNat_eq (Nat.lt_one_iff.1 hbits)⟩

/-- Settles O37: the lengths of one codeword from each leftover, and those of four codewords, 104 bits, from none. -/
theorem carryLengthCycle : Obligations.CarryLengthCycle := by
  refine ⟨fun bits d => by simp [accumulate], fun d0 d1 d2 d3 => ?_⟩
  obtain ⟨hbytes, hlen⟩ := accumulateAll_length 0 0 [d0, d1, d2, d3]
  have hbits := accumulateAll_bits_lt (len := 0) (bits := 0) (by decide) [d0, d1, d2, d3]
  obtain ⟨hlen, hbits⟩ := carry_eq_zero (by simpa using hlen) hbits
  exact ⟨by simpa using hbytes, Prod.ext hlen hbits⟩

end Sys2Proof.Machine
end

section
/-!
One push (spec/41_accumulator.md R118 to R120): its next state in each of its forms, what it leaves alone of OBUF, and that in
the invariant it never runs past OBUF, so that no step stops.
-/

namespace Sys2Proof.Machine

/-! ### The forms of CWPUSH -/

theorem exec_cwpush_seq {last : Bool} {s : State} (w : Word)
    (h : s.xstate ≠ .inblk ∨ s.cwrem = 0 ∨ (last = true ∧ s.cwrem ≠ 1)) :
    exec (.cwpush last w) s = .next (s.withResp .seq) := by
  obtain ⟨-, e⟩ | ⟨hblk, hcw, hlast, -⟩ := execCwpush_cases last w s
  · exact e
  · tauto

section
variable {last : Bool} {w : Word} {s : State} (hblk : s.xstate = .inblk) (hcw : s.cwrem ≠ 0)
  (hlast : last = true → s.cwrem = 1)
include hblk hcw hlast

/-- A push that is not out of sequence decodes its codeword, in the three ways that are left of `execCwpush_cases`. -/
theorem exec_cwpush_cases :
    ((decodeCodeword w).cls = .uncorr ∧ exec (.cwpush last w) s =
      .next ((((s.countCodeword last).withDecoded (decodeCodeword w)).markBerr).withResp .uncorr)) ∨
    ((decodeCodeword w).cls ≠ .uncorr ∧ s.berr = true ∧ exec (.cwpush last w) s =
      .next (((s.countCodeword last).withDecoded (decodeCodeword w)).withResp .ok)) ∨
    ((decodeCodeword w).cls ≠ .uncorr ∧ s.berr = false ∧ exec (.cwpush last w) s =
      pushData (decodeCodeword w).data last ((s.countCodeword last).withDecoded (decodeCodeword w))) := by
  obtain ⟨hseq, -⟩ | ⟨-, -, -, h⟩ := execCwpush_cases last w s
  · tauto
  · exact h

theorem exec_cwpush_uncorr (hw : (decodeCodeword w).cls = .uncorr) :
    exec (.cwpush last w) s =
      .next ((((s.countCodeword last).withDecoded (decodeCodeword w)).markBerr).withResp .uncorr) := by
  obtain ⟨-, e⟩ | ⟨hw', -⟩ | ⟨hw', -⟩ := exec_cwpush_cases (w := w) hblk hcw hlast
  · exact e
  · exact absurd hw hw'
  · exact absurd hw hw'

theorem exec_cwpush_abandoned (hw : decodable w) (hberr : s.berr = true) :
    exec (.cwpush last w) s = .next (((s.countCodeword last).withDecoded (decodeCodeword w)).withResp .ok) := by
  obtain ⟨hw', -⟩ | ⟨-, -, e⟩ | ⟨-, hberr', -⟩ := exec_cwpush_cases (w := w) hblk hcw hlast
  · exact absurd hw' hw
  · exact e
  · simp [hberr] at hberr'

theorem exec_cwpush_accumulated (hw : decodable w) (hberr : s.berr = false)
    (hfit : s.wptr.toNat + (s.wlen.toNat + 26) / 8 ≤ obufBytes) :
    exec (.cwpush last w) s =
      .next (((s.accumulated (decodeCodeword w).data last).withDecoded (decodeCodeword w)).withResp .ok) := by
  obtain ⟨hw', -⟩ | ⟨-, hberr', -⟩ | ⟨-, -, e⟩ := exec_cwpush_cases (w := w) hblk hcw hlast
  · exact absurd hw' hw
  · simp [hberr] at hberr'
  · obtain ⟨-, e'⟩ | ⟨hover, -⟩ := pushData_cases (decodeCodeword w).data last
      ((s.countCodeword last).withDecoded (decodeCodeword w))
    · exact e.trans e'
    · exact absurd hfit (Nat.not_le.2 hover)

end

/-- Settles O12: the two rows, and the next state of each form; the written bytes are read back from the run of writes. -/
theorem cwpushResult : Obligations.CwpushResult := by
  refine ⟨fun w => ⟨decodeCmd_cwpush w, decodeCmd_cwpushL w⟩, fun last w s => ⟨fun h => ?_, fun hlast hcw => ?_, ?_⟩⟩
  · exact exec_cwpush_seq w (h.imp_right .inl)
  · exact exec_cwpush_seq w (.inr (.inr ⟨hlast, hcw⟩))
  · refine fun hblk hcw hlast => ⟨fun hw => ?_, fun hw hberr => ?_, fun hw hberr hfit => ?_⟩
    · exact ⟨_, exec_cwpush_uncorr hblk hcw hlast hw, cwrem_pred hcw, rfl⟩
    · exact ⟨_, exec_cwpush_abandoned hblk hcw hlast hw hberr, cwrem_pred hcw, rfl⟩
    · rw [accumulate_bytes_length] at hfit
      exact ⟨_, exec_cwpush_accumulated hblk hcw hlast hw hberr hfit, cwrem_pred hcw, wptr_advance hfit, rfl,
        fun _ hj => Memory.get_setAll_inside _ _ hj, fun _ hi => Memory.get_setAll_outside _ _ hi⟩

/-- Settles O23: only the accumulating form writes OBUF, and it answers OK with BERR clear. -/
theorem cwpushMemoryFrame : Obligations.CwpushMemoryFrame := by
  intro last w s t h
  by_cases hseq : s.xstate ≠ .inblk ∨ s.cwrem = 0 ∨ (last = true ∧ s.cwrem ≠ 1)
  · cases (exec_cwpush_seq w hseq).symm.trans h
    exact ⟨fun _ _ => rfl, fun _ _ => rfl⟩
  push Not at hseq
  obtain ⟨hblk, hcw, hlast⟩ := hseq
  obtain ⟨-, e⟩ | ⟨-, -, e⟩ | ⟨-, hberr, e⟩ := exec_cwpush_cases (w := w) hblk hcw hlast
  · cases e.symm.trans h
    exact ⟨fun _ _ => rfl, fun _ _ => rfl⟩
  · cases e.symm.trans h
    exact ⟨fun _ _ => rfl, fun _ _ => rfl⟩
  · obtain ⟨-, e'⟩ | ⟨-, e'⟩ := pushData_cases (decodeCodeword w).data last
      ((s.countCodeword last).withDecoded (decodeCodeword w)) <;> cases (e.trans e').symm.trans h
    exact ⟨fun _ hi => Memory.get_setAll_outside _ _ hi, fun hout => by simp [hberr] at hout⟩

/-! ### In the invariant nothing stops -/

/-- The budget of a block leaves room for the bytes of every codeword still expected (spec/41_accumulator.md R118). -/
theorem Inv.push_fits {s : State} (hs : Inv s) (hblk : s.xstate = .inblk) (hcw : s.cwrem ≠ 0) :
    s.wptr.toNat + (s.wlen.toNat + 26) / 8 ≤ obufBytes := by
  have hbudget := hs.blockBudget hblk
  have hpred := cwrem_pred hcw
  rw [maxCodewords] at hbudget
  rw [obufBytes]
  omega

theorem Inv.exec_answers {s : State} (hs : Inv s) (i : Instr) : ∃ t, exec i s = .next t := by
  cases i with
  | nop => exact ⟨_, rfl⟩
  | xrst => exact ⟨_, rfl⟩
  | cwdec w => exact ⟨_, rfl⟩
  | bbegin len => obtain ⟨-, e⟩ | ⟨-, -, e⟩ | ⟨-, -, -, e⟩ := execBbegin_cases len s <;> exact ⟨_, e⟩
  | bcommit => obtain ⟨-, e⟩ | ⟨-, -, -, e⟩ | ⟨-, -, -, e⟩ := execBcommit_cases s <;> exact ⟨_, e⟩
  | babort => obtain ⟨-, e⟩ | ⟨-, e⟩ := execBabort_cases s <;> exact ⟨_, e⟩
  | cwpush last w =>
    obtain ⟨-, e⟩ | ⟨hblk, hcw, hlast, ⟨-, e⟩ | ⟨-, -, e⟩ | ⟨hw, hberr, -⟩⟩ := execCwpush_cases last w s
    · exact ⟨_, e⟩
    · exact ⟨_, e⟩
    · exact ⟨_, e⟩
    · exact ⟨_, exec_cwpush_accumulated hblk hcw hlast hw hberr (hs.push_fits hblk hcw)⟩

theorem Inv.completeCommand_answers {s : State} (hs : Inv s) (c : Command) : ∃ t, completeCommand c s = .next t := by
  have hidle : Inv (s.withInflight none) := hs.of_block_eq rfl
  have hperform : ∃ u, performCommand c (s.withInflight none) = .next u := by
    unfold performCommand
    split
    · exact hidle.exec_answers _
    · exact ⟨_, rfl⟩
  obtain ⟨u, hu⟩ := hperform
  exact ⟨_, by rw [completeCommand, hu]; rfl⟩

/-- Settles O49: the one action that could stop is a command, and in the invariant every command answers. -/
theorem stepNeverStops : Obligations.StepNeverStops := by
  intro s hs
  obtain ⟨f, -, e⟩ | ⟨c, es, -, -, e⟩ | ⟨a, es, -, -, e⟩ | ⟨a, es, -, -, e⟩ | ⟨es, -, -, e⟩ | ⟨-, -, e⟩ := step_cases s <;>
    rw [e]
  · exact hs.completeCommand_answers f.command
  · have hrest : Inv (s.withHost es) := hs.of_block_eq rfl
    exact hrest.completeCommand_answers c
  · exact ⟨_, rfl⟩
  · exact ⟨_, rfl⟩
  · exact ⟨_, rfl⟩
  · exact ⟨_, rfl⟩

end Sys2Proof.Machine
end

section
/-!
Runs of pushes and blocks: the pushes of an abandoned block (spec/41_accumulator.md R120, spec/60_exceptions.md R164), and what
blocks of decodable codewords deliver (spec/41_accumulator.md R113, R116, R117, spec/42_block_control.md R133, R134).
-/

namespace Sys2Proof.Machine

/-! ### The pushes of a block -/

/-- All pushes but the last are plain CWPUSH. -/
theorem pushCommands_concat (final : Bool) (ws : List Word) (w : Word) :
    pushCommands final (ws ++ [w]) = ws.map (.cwpush false) ++ [.cwpush final w] := by
  induction ws with
  | nil => rfl
  | cons v ws ih =>
    rw [List.map_cons, List.cons_append, List.cons_append, ← ih]
    cases ws <;> rfl

theorem pushCommands_false (ws : List Word) : pushCommands false ws = ws.map (.cwpush false) := by
  cases ws using List.reverseRecOn with
  | nil => rfl
  | append_singleton ws w => rw [pushCommands_concat, List.map_append]; rfl

theorem execAll_concat {is : List Instr} {i : Instr} {s t u : State} (h : execAll is s = .next t)
    (h' : exec i t = .next u) : execAll (is ++ [i]) s = .next u := by
  rw [execAll_append h, execAll_cons h', execAll_nil]

theorem cwrem_ne_zero {s : State} (h : 0 < s.cwrem.toNat) : s.cwrem ≠ 0 := fun e => by simp [e] at h

/-! ### The pushes of an abandoned block -/

/-- The state after a push into an abandoned block, whatever the codeword. -/
def State.skipped (last : Bool) (w : Word) (s : State) : State :=
  ((s.countCodeword last).withDecoded (decodeCodeword w)).withResp
    (if (decodeCodeword w).cls = .uncorr then .uncorr else .ok)

theorem exec_cwpush_of_berr {last : Bool} {w : Word} {s : State} (hblk : s.xstate = .inblk) (hcw : s.cwrem ≠ 0)
    (hlast : last = true → s.cwrem = 1) (hberr : s.berr = true) :
    exec (.cwpush last w) s = .next (s.skipped last w) := by
  by_cases hw : (decodeCodeword w).cls = .uncorr
  · have hmark : ((s.countCodeword last).withDecoded (decodeCodeword w)).markBerr =
        (s.countCodeword last).withDecoded (decodeCodeword w) := by
      rw [State.markBerr, ← hberr]; rfl
    rw [exec_cwpush_uncorr hblk hcw hlast hw, hmark, State.skipped, if_pos hw]
  · rw [exec_cwpush_abandoned hblk hcw hlast hw hberr, State.skipped, if_neg hw]

/-- What a push into an abandoned block leaves alone. -/
structure SameBlock (s t : State) : Prop where
  xstate : t.xstate = s.xstate
  berr : t.berr = s.berr
  wptr : t.wptr = s.wptr
  wlen : t.wlen = s.wlen
  wbits : t.wbits = s.wbits
  clen : t.clen = s.clen
  cbits : t.cbits = s.cbits
  obuf : t.obuf = s.obuf

theorem SameBlock.skipped {s t : State} (h : SameBlock s t) (last : Bool) (w : Word) : SameBlock s (t.skipped last w) :=
  { h with }

theorem execAll_cwpush_of_berr {s : State} (hblk : s.xstate = .inblk) (hberr : s.berr = true) (ws : List Word)
    (hcount : ws.length ≤ s.cwrem.toNat) :
    ∃ t, execAll (ws.map (.cwpush false)) s = .next t ∧ SameBlock s t ∧ t.cwrem.toNat + ws.length = s.cwrem.toNat := by
  induction ws using List.reverseRecOn with
  | nil => exact ⟨s, rfl, ⟨rfl, rfl, rfl, rfl, rfl, rfl, rfl, rfl⟩, rfl⟩
  | append_singleton ws w ih =>
    rw [List.length_append, List.length_singleton] at hcount ⊢
    obtain ⟨t, ht, hsame, hleft⟩ := ih (by omega)
    have hcw : t.cwrem ≠ 0 := cwrem_ne_zero (by omega)
    have hpred : (t.skipped false w).cwrem.toNat + 1 = t.cwrem.toNat := cwrem_pred hcw
    refine ⟨t.skipped false w, ?_, hsame.skipped false w, by omega⟩
    rw [List.map_append]
    exact execAll_concat ht
      (exec_cwpush_of_berr (hsame.xstate.trans hblk) hcw nofun (hsame.berr.trans hberr))

/-- The pushes of all the codewords that an abandoned block still expects. -/
theorem execAll_pushCommands_of_berr {s : State} (hblk : s.xstate = .inblk) (hberr : s.berr = true) (final : Bool)
    (ws : List Word) (hcount : s.cwrem.toNat = ws.length) :
    ∃ t, execAll (pushCommands final ws) s = .next t ∧ SameBlock s t ∧ t.cwrem = 0 ∧
      ∀ w, ws.getLast? = some w → ∃ r, t = State.skipped final w r := by
  cases ws using List.reverseRecOn with
  | nil => exact ⟨s, rfl, ⟨rfl, rfl, rfl, rfl, rfl, rfl, rfl, rfl⟩, BitVec.eq_of_toNat_eq hcount, by simp⟩
  | append_singleton ws w =>
    rw [List.length_append, List.length_singleton] at hcount
    obtain ⟨r, hr, hsame, hleft⟩ := execAll_cwpush_of_berr hblk hberr ws (by omega)
    have hone : r.cwrem = 1 := BitVec.eq_of_toNat_eq (by change _ = 1; omega)
    have hzero : (r.skipped final w).cwrem = 0 := by
      change r.cwrem - 1 = 0
      rw [hone]; rfl
    refine ⟨r.skipped final w, ?_, hsame.skipped final w, hzero, fun v hv => ⟨r, ?_⟩⟩
    · rw [pushCommands_concat]
      exact execAll_concat hr (exec_cwpush_of_berr (hsame.xstate.trans hblk) (by rw [hone]; decide) (fun _ => hone)
        (hsame.berr.trans hberr))
    · rw [List.getLast?_concat] at hv
      cases hv; rfl

theorem exec_bcommit_uncorr {s : State} (hblk : s.xstate = .inblk) (hcw : s.cwrem = 0) (hberr : s.berr = true) :
    exec .bcommit s = .next (s.dropBlock.withResp .uncorr) := by
  change execBcommit s = _
  simpa [hblk, hcw, hberr] using execBcommit_cases s

/-- Settles O14: the pushes leave everything but the count and the status alone, and the commit drops the block. -/
theorem abandonedBlockAccumulatesNothing : Obligations.AbandonedBlockAccumulatesNothing := by
  intro final ws s hblk hberr hcount
  obtain ⟨t, ht, hsame, hzero, hlast⟩ := execAll_pushCommands_of_berr hblk hberr final ws hcount
  have hberr' : t.berr = true := hsame.berr.trans hberr
  have hcommit := execAll_concat ht (exec_bcommit_uncorr (hsame.xstate.trans hblk) hzero hberr')
  refine ⟨⟨t, ht, hberr', hzero, hsame.wptr, hsame.wlen, hsame.wbits, hsame.obuf, fun w hw => ?_⟩,
    _, hcommit, rfl, rfl, rfl, hsame.clen, hsame.cbits, hsame.obuf⟩
  obtain ⟨r, rfl⟩ := hlast w hw
  exact ⟨rfl, rfl, rfl, rfl, rfl, rfl⟩

/-! ### The bytes of the block in progress -/

/-- The bytes below WPTR, those of the block in progress that a commit will deliver. -/
def State.blockBytes (s : State) : List (Option Byte) := (List.range s.wptr.toNat).map s.obuf.get

theorem committedBytes_commitBlock (s : State) (r : Resp) : committedBytes (s.commitBlock.withResp r) = s.blockBytes := rfl

@[simp] theorem State.blockBytes_length (s : State) : s.blockBytes.length = s.wptr.toNat := by simp [State.blockBytes]

/-- The first bytes of a written run, read back. -/
theorem Memory.map_get_setAll (m : Memory) (a : Nat) (bs : List Byte) {n : Nat} (hn : n ≤ bs.length) :
    (List.range n).map (fun j => (m.setAll a bs).get (a + j)) = (bs.take n).map some := by
  refine List.ext_getElem (by simpa using hn) fun j hj _ => ?_
  have hj : j < bs.length := lt_of_lt_of_le (by simpa using hj) hn
  simp [Memory.get_setAll_inside bs m hj, List.getElem?_eq_getElem hj]

/-- An accumulating push adds to the block the assembled bytes that it outputs. -/
theorem blockBytes_accumulated {s : State} {d : Data} {last : Bool}
    (hfit : s.wptr.toNat + (s.wlen.toNat + 26) / 8 ≤ obufBytes) :
    (s.accumulated d last).blockBytes = s.blockBytes ++
      ((accumulate s.wlen s.wbits d last).bytes.take (accumulate s.wlen s.wbits d last).adv).map some := by
  have hptr : (s.accumulated d last).wptr.toNat = s.wptr.toNat + (accumulate s.wlen s.wbits d last).adv :=
    wptr_advance hfit
  have hobuf : (s.accumulated d last).obuf = s.obuf.setAll s.wptr.toNat (accumulate s.wlen s.wbits d last).bytes := rfl
  have hadv := accumulate_adv_le s.wlen s.wbits d last
  rw [← accumulate_bytes_length s.wlen s.wbits d last] at hadv
  rw [State.blockBytes, hptr, hobuf, List.range_add, List.map_append, List.map_map]
  congr 1
  · refine List.map_congr_left fun i hi => Memory.get_setAll_outside _ _ (.inl (List.mem_range.1 hi))
  · exact Memory.map_get_setAll _ _ _ hadv

/-- Of a final codeword, the bytes before the first zero byte are output. -/
theorem take_adv_final (len : BitVec 3) (bits : BitVec 7) (d : Data) :
    (accumulate len bits d true).bytes.take (accumulate len bits d true).adv =
      (accumulate len bits d true).bytes.takeWhile (· != 0) := by
  have hzero : (fun b : Byte => !(b != 0)) = (· == 0) := funext fun b => Bool.not_not _
  rw [List.takeWhile_eq_take_findIdx_not, hzero]
  rfl

/-! ### The pushes of decodable codewords -/

theorem dataStream_append (vs ws : List Word) : dataStream (vs ++ ws) = dataStream vs ++ dataStream ws :=
  List.flatMap_append

@[simp] theorem dataStream_nil : dataStream [] = [] := rfl

@[simp] theorem dataStream_singleton (w : Word) : dataStream [w] = dataSeq (decodeCodeword w).data := by simp [dataStream]

@[simp] theorem dataStream_length (ws : List Word) : (dataStream ws).length = 26 * ws.length := by
  simp [dataStream, List.length_flatMap, mul_comm]

/-- `t` is where plain pushes of the decodable codewords `ws` lead from `s`, a state in a block that is not abandoned: the
block has grown by the bytes of one run of the byte loop, which leaves the working carry. -/
structure Pushed (s : State) (ws : List Word) (t : State) : Prop where
  xstate : t.xstate = .inblk
  berr : t.berr = false
  lseen : t.lseen = s.lseen
  count : t.cwrem.toNat + ws.length = s.cwrem.toNat
  bytes : t.blockBytes = s.blockBytes ++ (packBytes (carrySeq s.wlen s.wbits ++ dataStream ws)).1.map some
  carry : carrySeq t.wlen t.wbits = (packBytes (carrySeq s.wlen s.wbits ++ dataStream ws)).2

/-- No bit is lost: what is not in a byte of the block is in the working carry. -/
theorem Pushed.budget {s t : State} {ws : List Word} (h : Pushed s ws t) :
    8 * t.wptr.toNat + t.wlen.toNat = 8 * s.wptr.toNat + s.wlen.toNat + 26 * ws.length := by
  obtain ⟨hn, hl⟩ := packBytes_length (carrySeq s.wlen s.wbits ++ dataStream ws)
  have hptr := congrArg List.length h.bytes
  have hlen := congrArg List.length h.carry
  simp only [State.blockBytes_length, List.length_append, List.length_map, carrySeq_length,
    dataStream_length] at hn hl hptr hlen
  omega

/-- There is room for one more codeword where there is for its bits. -/
theorem Pushed.push_fits {s t : State} {ws : List Word} (h : Pushed s ws t)
    (hroom : 8 * s.wptr.toNat + s.wlen.toNat + 26 * (ws.length + 1) < 8 * (obufBytes + 1)) :
    t.wptr.toNat + (t.wlen.toNat + 26) / 8 ≤ obufBytes := by
  have hbudget := h.budget
  omega

theorem pushed_nil {s : State} (hblk : s.xstate = .inblk) (hberr : s.berr = false) : Pushed s [] s :=
  ⟨hblk, hberr, rfl, rfl, by simp [packBytes_carrySeq], by simp [packBytes_carrySeq]⟩

/-- One more plain push of a decodable codeword. -/
theorem Pushed.concat {s t : State} {ws : List Word} (h : Pushed s ws t) (hcw : t.cwrem ≠ 0) (w : Word)
    (hfit : t.wptr.toNat + (t.wlen.toNat + 26) / 8 ≤ obufBytes) :
    Pushed s (ws ++ [w]) (((t.accumulated (decodeCodeword w).data false).withDecoded (decodeCodeword w)).withResp .ok) := by
  have hloop := packBytes_append (carrySeq s.wlen s.wbits ++ dataStream ws) (dataSeq (decodeCodeword w).data)
  rw [← h.carry, packBytes_carrySeq_dataSeq, List.append_assoc, ← dataStream_singleton w, ← dataStream_append] at hloop
  exact
    { xstate := h.xstate
      berr := h.berr
      lseen := (Bool.or_false _).trans h.lseen
      count := by
        have hpred : (t.cwrem - 1).toNat + 1 = t.cwrem.toNat := cwrem_pred hcw
        have hcount := h.count
        change (t.cwrem - 1).toNat + (ws ++ [w]).length = _
        rw [List.length_append, List.length_singleton]; omega
      bytes := by
        have hall := List.take_length (l := (accumulate t.wlen t.wbits (decodeCodeword w).data false).bytes)
        rw [accumulate_bytes_length] at hall
        refine (blockBytes_accumulated hfit).trans ?_
        rw [accumulate_adv_nonfinal, hall, hloop, h.bytes, List.map_append, List.append_assoc]
      carry := by rw [hloop]; rfl }

theorem execAll_cwpush_decodable {s : State} (hblk : s.xstate = .inblk) (hberr : s.berr = false) (ws : List Word)
    (hdec : ∀ w ∈ ws, decodable w) (hcount : ws.length ≤ s.cwrem.toNat)
    (hroom : 8 * s.wptr.toNat + s.wlen.toNat + 26 * ws.length < 8 * (obufBytes + 1)) :
    ∃ t, execAll (ws.map (.cwpush false)) s = .next t ∧ Pushed s ws t := by
  induction ws using List.reverseRecOn with
  | nil => exact ⟨s, rfl, pushed_nil hblk hberr⟩
  | append_singleton ws w ih =>
    rw [List.length_append, List.length_singleton] at hcount hroom
    obtain ⟨hdec, hw⟩ := List.forall_mem_append.1 hdec
    obtain ⟨t, ht, hpushed⟩ := ih hdec (by omega) (by omega)
    have hleft := hpushed.count
    have hcw : t.cwrem ≠ 0 := cwrem_ne_zero (by omega)
    have hfit := hpushed.push_fits hroom
    refine ⟨_, ?_, hpushed.concat hcw w hfit⟩
    rw [List.map_append]
    exact execAll_concat ht
      (exec_cwpush_accumulated hpushed.xstate hcw nofun (hw w (List.mem_singleton_self w)) hpushed.berr hfit)

/-! ### Whole blocks -/

theorem exec_bcommit_ok {s : State} (hblk : s.xstate = .inblk) (hcw : s.cwrem = 0) (hberr : s.berr = false) :
    exec .bcommit s = .next (s.commitBlock.withResp .ok) := by
  change execBcommit s = _
  simpa [hblk, hcw, hberr] using execBcommit_cases s

/-- The state in which a block of `n` codewords has been opened. -/
def State.openedBlock (n : Nat) (s : State) : State := (s.openBlock (4 * n)).withResp .ok

theorem openedBlock_cwrem (s : State) {n : Nat} (hn : n ≤ maxCodewords) : (s.openedBlock n).cwrem.toNat = n := by
  rw [maxCodewords] at hn
  change (BitVec.ofNat 8 (4 * n / 4)).toNat = n
  rw [BitVec.toNat_ofNat]
  omega

theorem exec_bbegin_ok {s : State} (hready : s.xstate = .ready) {n : Nat} (hn : n ≤ maxCodewords) :
    exec (.bbegin (BitVec.ofNat 16 (4 * n))) s = .next (s.openedBlock n) := by
  rw [maxCodewords] at hn
  have hlen : (BitVec.ofNat 16 (4 * n)).toNat = 4 * n := by rw [BitVec.toNat_ofNat]; omega
  obtain ⟨h, -⟩ | ⟨-, h, -⟩ | ⟨-, -, -, e⟩ := execBbegin_cases (BitVec.ofNat 16 (4 * n)) s
  · exact absurd hready h
  · rw [hlen, maxPayload] at h; omega
  · rw [hlen] at e; exact e

/-- A block runs from the opened state through its pushes to its commit. -/
theorem execAll_wholeBlock {final : Bool} {ws : List Word} {s t u : State} (hready : s.xstate = .ready)
    (hn : ws.length ≤ maxCodewords) (hpush : execAll (pushCommands final ws) (s.openedBlock ws.length) = .next t)
    (hcommit : exec .bcommit t = .next u) : execAll (wholeBlock final ws) s = .next u := by
  rw [wholeBlock, blockOf, execAll_cons (exec_bbegin_ok hready hn)]
  exact execAll_concat hpush hcommit

/-- An opened block has no bytes yet and at most 7 bits of carry, so there is room for all its codewords. -/
theorem openedBlock_room (s : State) {n : Nat} (hn : n ≤ maxCodewords) :
    8 * (s.openedBlock n).wptr.toNat + (s.openedBlock n).wlen.toNat + 26 * n < 8 * (obufBytes + 1) := by
  have hcarry := (s.openedBlock n).wlen.isLt
  have hptr : (s.openedBlock n).wptr.toNat = 0 := rfl
  rw [maxCodewords] at hn
  rw [obufBytes]
  omega

theorem openedBlock_pushes {s : State} {n : Nat} (hn : n ≤ maxCodewords) (ws : List Word) (hdec : ∀ w ∈ ws, decodable w)
    (hle : ws.length ≤ n) :
    ∃ t, execAll (ws.map (.cwpush false)) (s.openedBlock n) = .next t ∧ Pushed (s.openedBlock n) ws t := by
  have hcount := openedBlock_cwrem s hn
  have hroom := openedBlock_room s hn
  exact execAll_cwpush_decodable rfl rfl ws hdec (by omega) (by omega)

/-- A non-final block of decodable codewords commits the bytes of one run of the byte loop over the committed carry and their
data, and the carry that the run leaves. -/
theorem execAll_wholeBlock_nonfinal {s : State} (hready : s.xstate = .ready) (ws : List Word)
    (hn : ws.length ≤ maxCodewords) (hdec : ∀ w ∈ ws, decodable w) :
    ∃ t, execAll (wholeBlock false ws) s = .next t ∧ t.resp = .ok ∧ t.xstate = .ready ∧
      committedBytes t = (packBytes (carrySeq s.clen s.cbits ++ dataStream ws)).1.map some ∧
      carrySeq t.clen t.cbits = (packBytes (carrySeq s.clen s.cbits ++ dataStream ws)).2 := by
  obtain ⟨t, ht, hpushed⟩ := openedBlock_pushes (s := s) hn ws hdec (le_refl _)
  have hzero : t.cwrem = 0 := by
    have hcount := hpushed.count
    rw [openedBlock_cwrem s hn] at hcount
    exact BitVec.eq_of_toNat_eq (Nat.add_eq_right.1 hcount)
  have hlseen : t.lseen = false := hpushed.lseen
  refine ⟨_, execAll_wholeBlock hready hn ?_ (exec_bcommit_ok hpushed.xstate hzero hpushed.berr), rfl, ?_,
    (committedBytes_commitBlock t .ok).trans hpushed.bytes, hpushed.carry⟩
  · rw [pushCommands_false]; exact ht
  · simp [hlseen]

/-- Settles O39, by induction on the blocks: each takes the byte loop up with the carry that the one before committed. -/
theorem blocksDeliverTheStream : Obligations.BlocksDeliverTheStream := by
  intro blocks s hready hblocks
  induction blocks generalizing s with
  | nil =>
    rw [List.flatten_nil, dataStream_nil, List.append_nil, packBytes_carrySeq]
    exact ⟨s, rfl, hready, rfl⟩
  | cons ws blocks ih =>
    obtain ⟨⟨hn, hdec⟩, hrest⟩ := List.forall_mem_cons.1 hblocks
    obtain ⟨t, ht, hresp, htready, hbytes, hcarry⟩ := execAll_wholeBlock_nonfinal hready ws hn hdec
    obtain ⟨u, hu, huready, hucarry⟩ := ih t htready hrest
    rw [List.flatten_cons, dataStream_append, ← List.append_assoc, packBytes_append, ← hcarry]
    refine ⟨u, ?_, huready, hucarry⟩
    simp only [deliver, ht, hu, hresp, if_true, hbytes, List.map_append]

/-- The bytes assembled with a final codeword are those of the byte loop over the carry that the pushes left and its data. -/
theorem Pushed.final_bytes {s t : State} {ws : List Word} (h : Pushed s ws t) (d : Data) :
    (packBytes ((packBytes (carrySeq s.wlen s.wbits ++ dataStream ws)).2 ++ dataSeq d)).1 =
      (accumulate t.wlen t.wbits d true).bytes := by
  rw [← h.carry, packBytes_carrySeq_dataSeq, accumulate_bytes, accumulate_bytes]

/-- Settles O40: the pushes before the last are plain, and the last one discards its leftover and ends the output at its first
zero byte. -/
theorem finalBlockDelivers : Obligations.FinalBlockDelivers := by
  intro ws w s hready hlt hdec hw before final
  have hn : ws.length + 1 ≤ maxCodewords := hlt
  obtain ⟨t, ht, hpushed⟩ := openedBlock_pushes (s := s) hn ws hdec (Nat.le_succ _)
  have hone : t.cwrem = 1 := by
    have hcount := hpushed.count
    rw [openedBlock_cwrem s hn, Nat.add_comm] at hcount
    exact BitVec.eq_of_toNat_eq (Nat.add_left_cancel hcount)
  have hfit := hpushed.push_fits (openedBlock_room s hn)
  have hlast := exec_cwpush_accumulated (last := true) (w := w) hpushed.xstate (by rw [hone]; decide) (fun _ => hone) hw
    hpushed.berr hfit
  have hpush := execAll_concat ht hlast
  have hlen : (ws ++ [w]).length = ws.length + 1 := List.length_append
  rw [← pushCommands_concat, ← hlen] at hpush
  refine ⟨_, execAll_wholeBlock hready (hlen ▸ hn) hpush (exec_bcommit_ok hpushed.xstate ?_ hpushed.berr), rfl, ?_,
    rfl, rfl, ?_⟩
  · change t.cwrem - 1 = 0
    rw [hone]; rfl
  · change (if t.lseen || true then XState.done else XState.ready) = .done
    rw [Bool.or_true, if_pos rfl]
  · have hfinal : final = (accumulate t.wlen t.wbits (decodeCodeword w).data true).bytes := hpushed.final_bytes _
    refine (committedBytes_commitBlock _ .ok).trans ((blockBytes_accumulated hfit).trans ?_)
    rw [take_adv_final, ← hfinal, List.map_append, hpushed.bytes]
    rfl

/-- Settles O41: carry and data are 416 bytes and as many bits as the carry had. -/
theorem fullBlock : Obligations.FullBlock := by
  intro ws s hready hlen hdec _
  obtain ⟨t, ht, hresp, -, hbytes, hcarry⟩ := execAll_wholeBlock_nonfinal hready ws (le_of_eq hlen) hdec
  have hclen := s.clen.isLt
  obtain ⟨hn, hl⟩ := packBytes_length (carrySeq s.clen s.cbits ++ dataStream ws)
  rw [List.length_append, carrySeq_length, dataStream_length, hlen] at hn hl
  have hcount : (committedBytes t).length = 416 := by rw [hbytes, List.length_map, hn]; omega
  have hocnt : (committedBytes t).length = t.ocnt.toNat := by simp [committedBytes]
  rw [← hcarry, carrySeq_length] at hl
  refine ⟨t, ht, hresp, hocnt.symm.trans hcount, BitVec.eq_of_toNat_eq (by omega), hcount, fun b hb => ?_⟩
  rw [hbytes, List.mem_map] at hb
  obtain ⟨c, -, rfl⟩ := hb
  rfl

end Sys2Proof.Machine
end

section
/-!
The sequencing commands (spec/42_block_control.md R130 to R135): their rows, their next states in each of their forms, the
table of XSTATE, and that XRST alone leaves DONE.
-/

namespace Sys2Proof.Machine

/-! ### The commands one by one -/

/-- Settles O9: the presented NOP changes the ports alone. -/
theorem nopChangesNothing : Obligations.NopChangesNothing := by
  refine ⟨decodeCmd_nop, fun s => ⟨rfl, fun t _ hstep => ?_⟩⟩
  rw [step_present, performCommand_of_decode_ok (c := encode .nop) (decodeCmd_nop 0)] at hstep
  cases hstep
  exact ⟨rfl, rfl, rfl⟩

/-- Settles O10: the cleared registers, field by field and as they are read. -/
theorem xrstResult : Obligations.XrstResult := by
  refine ⟨decodeCmd_xrst, fun s => ⟨s.clearRegisters.withResp .ok, rfl, ?_⟩⟩
  simp [statusWord, countWord, carryWord, dstatWord, ddataWord, XState.code, Resp.code, DClass.code]

theorem exec_bbegin_seq {len : BitVec 16} {s : State} (hout : s.xstate ≠ .ready) :
    exec (.bbegin len) s = .next (s.withResp .seq) := by
  obtain ⟨-, e⟩ | ⟨hready, -⟩ | ⟨hready, -⟩ := execBbegin_cases len s
  · exact e
  · exact absurd hready hout
  · exact absurd hready hout

theorem exec_bbegin_malformed {len : BitVec 16} {s : State} (hready : s.xstate = .ready)
    (hbad : len.toNat % 4 ≠ 0 ∨ maxPayload < len.toNat) : exec (.bbegin len) s = .next (s.withResp .malformed) := by
  obtain ⟨hout, -⟩ | ⟨-, -, e⟩ | ⟨-, hwhole, hle, -⟩ := execBbegin_cases len s
  · exact absurd hready hout
  · exact e
  · omega

theorem exec_bbegin_opens {len : BitVec 16} {s : State} (hready : s.xstate = .ready) (hwhole : len.toNat % 4 = 0)
    (hle : len.toNat ≤ maxPayload) : exec (.bbegin len) s = .next ((s.openBlock len.toNat).withResp .ok) := by
  obtain ⟨hout, -⟩ | ⟨-, hbad, -⟩ | ⟨-, -, -, e⟩ := execBbegin_cases len s
  · exact absurd hready hout
  · omega
  · exact e

/-- Settles O11: the row, and the next state of each form; a valid length is four times a count of at most 128. -/
theorem bbeginResult : Obligations.BbeginResult := by
  refine ⟨fun arg => ?_, fun len s => ⟨exec_bbegin_seq, exec_bbegin_malformed, fun hready hwhole hle => ?_⟩⟩
  · rw [decodeCmd_bbegin, BitVec.setWidth_eq_extractLsb' (by decide)]
  · refine ⟨_, exec_bbegin_opens hready hwhole hle, ?_, rfl⟩
    rw [State.withResp_cwrem, State.openBlock_cwrem, BitVec.toNat_ofNat]
    omega

theorem exec_bcommit_seq {s : State} (h : s.xstate ≠ .inblk ∨ s.cwrem ≠ 0) :
    exec .bcommit s = .next (s.withResp .seq) := by
  obtain ⟨-, e⟩ | ⟨hblk, hcw, -⟩ | ⟨hblk, hcw, -⟩ := execBcommit_cases s
  · exact e
  · tauto
  · tauto

/-- Settles O15: the row, and the next state of each form; `L` seen or not, the commit is one update of the state. -/
theorem bcommitResult : Obligations.BcommitResult := by
  refine ⟨decodeCmd_bcommit, fun s => ⟨exec_bcommit_seq, exec_bcommit_uncorr, fun hblk hcw hberr hlseen => ?_,
    fun hblk hcw hberr hlseen => ?_⟩⟩ <;> rw [exec_bcommit_ok hblk hcw hberr, State.commitBlock, hlseen] <;> rfl

theorem exec_babort_seq {s : State} (hout : s.xstate ≠ .inblk) : exec .babort s = .next (s.withResp .seq) := by
  obtain ⟨-, e⟩ | ⟨hblk, -⟩ := execBabort_cases s
  · exact e
  · exact absurd hblk hout

theorem exec_babort_ok {s : State} (hblk : s.xstate = .inblk) : exec .babort s = .next (s.dropBlock.withResp .ok) := by
  obtain ⟨hout, -⟩ | ⟨-, e⟩ := execBabort_cases s
  · exact absurd hblk hout
  · exact e

/-- Settles O16: the row, and the next state in and outside a block. -/
theorem babortResult : Obligations.BabortResult :=
  ⟨decodeCmd_babort, fun _ => ⟨exec_babort_seq, exec_babort_ok⟩⟩

/-! ### The table of XSTATE -/

/-- The cells of the table that say SEQ, and BCOMMIT while codewords are expected. -/
theorem exec_of_out_of_sequence {i : Instr} {s : State}
    (hseq : mnemonicOf i = .bbegin ∧ s.xstate ≠ .ready ∨
      mnemonicOf i ∈ [.cwpush, .bcommit, .babort] ∧ s.xstate ≠ .inblk ∨ mnemonicOf i = .bcommit ∧ s.cwrem ≠ 0) :
    exec i s = .next (s.withResp .seq) := by
  cases i with
  | bbegin len => exact exec_bbegin_seq (by simpa [mnemonicOf] using hseq)
  | cwpush last w => exact exec_cwpush_seq w (.inl (by simpa [mnemonicOf] using hseq))
  | bcommit => exact exec_bcommit_seq (by simpa [mnemonicOf] using hseq)
  | babort => exact exec_babort_seq (by simpa [mnemonicOf] using hseq)
  | nop => simp [mnemonicOf] at hseq
  | xrst => simp [mnemonicOf] at hseq
  | cwdec w => simp [mnemonicOf] at hseq

/-- Settles O18: the cells of the table by the forms of each command, its SEQ cells by the commands' SEQ forms. -/
theorem sequencingTable : Obligations.SequencingTable := by
  refine ⟨fun i s t h => ?_, fun i s t h hseq => ?_, fun c s t hbad h => ?_⟩
  · obtain ⟨rfl, rfl⟩ | ⟨rfl, rfl⟩ | ⟨w, rfl, rfl⟩ | ⟨len, rfl, hbbegin⟩ | ⟨rfl, hbabort⟩ | ⟨rfl, hbcommit⟩ |
      ⟨last, w, rfl, hcwpush⟩ := exec_next_cases h
    · rfl
    · rfl
    · rfl
    · obtain ⟨hout, rfl⟩ | ⟨hready, hbad, rfl⟩ | ⟨hready, hwhole, hle, rfl⟩ := hbbegin
      · cases hx : s.xstate with
        | ready => exact absurd hx hout
        | inblk => exact hx
        | done => exact hx
      · rw [maxPayload] at hbad
        simp only [hready, State.withResp_xstate]
        rw [if_neg (by omega)]
      · simp only [hready]
        rw [if_pos ⟨hwhole, hle⟩]; rfl
    · obtain ⟨hout, rfl⟩ | ⟨hblk, rfl⟩ := hbabort
      · cases hx : s.xstate with
        | ready => exact hx
        | inblk => exact absurd hx hout
        | done => exact hx
      · simp [hblk]
    · obtain ⟨hseq, rfl⟩ | ⟨hblk, hcw, hberr, rfl⟩ | ⟨hblk, hcw, hberr, rfl⟩ := hbcommit
      · cases hx : s.xstate with
        | ready => exact hx
        | inblk =>
          have hcw : s.cwrem ≠ 0 := hseq.resolve_left (not_not_intro hx)
          simp only [hx, State.withResp_xstate, if_pos hcw]
        | done => exact hx
      · simp [hblk, hcw, hberr]
      · simp [hblk, hcw, hberr]
    · obtain ⟨-, rfl⟩ | ⟨-, -, -, ⟨-, rfl⟩ | ⟨-, -, rfl⟩ | ⟨-, -, -, rfl⟩⟩ := hcwpush <;> rfl
  · cases (exec_of_out_of_sequence hseq).symm.trans h
    rfl
  · cases (performCommand_of_illegal hbad s).symm.trans h
    rfl

/-- In DONE a command other than XRST is a NOP, a CWDEC, or out of sequence. -/
theorem exec_of_done {i : Instr} {s : State} (hdone : s.xstate = .done) (hi : i ≠ .xrst) :
    exec i s = .next s ∨ exec i s = .next (s.withResp .seq) ∨
      ∃ d, exec i s = .next ((s.withDecoded d).withResp .ok) := by
  have hready : s.xstate ≠ .ready := by simp [hdone]
  have hblk : s.xstate ≠ .inblk := by simp [hdone]
  cases i with
  | xrst => exact absurd rfl hi
  | nop => exact .inl rfl
  | cwdec w => exact .inr (.inr ⟨decodeCodeword w, rfl⟩)
  | bbegin len => exact .inr (.inl (exec_bbegin_seq hready))
  | cwpush last w => exact .inr (.inl (exec_cwpush_seq w (.inl hblk)))
  | bcommit => exact .inr (.inl (exec_bcommit_seq (.inl hblk)))
  | babort => exact .inr (.inl (exec_babort_seq hblk))

/-- Settles O25: what is left to do in DONE writes RESP and the decode status at most. -/
theorem doneIsTerminal : Obligations.DoneIsTerminal := by
  intro i s t h hdone hi
  obtain e | e | ⟨d, e⟩ := exec_of_done hdone hi <;> cases e.symm.trans h <;>
    exact ⟨hdone, rfl, rfl, rfl, fun _ => rfl⟩

end Sys2Proof.Machine
end

section
/-!
What the host makes of a block (spec/42_block_control.md R138 to R140): the commands it issues for a payload and the addresses
at which it reads the committed bytes.
-/

namespace Sys2Proof.Machine

/-! ### The commands of a payload -/

/-- A push is a CWPUSH.L exactly where no codeword follows it in a final block. -/
theorem pushCommands_cons (final : Bool) (w : Word) (ws : List Word) :
    pushCommands final (w :: ws) = .cwpush (final && decide (ws = [])) w :: pushCommands final ws := by
  cases ws <;> simp

@[simp] theorem pushCommands_length (final : Bool) (ws : List Word) : (pushCommands final ws).length = ws.length := by
  induction ws with
  | nil => rfl
  | cons w ws ih => rw [pushCommands_cons, List.length_cons, ih, List.length_cons]

theorem pushCommands_getElem? (final : Bool) {ws : List Word} {j : Nat} {w : Word} (h : ws[j]? = some w) :
    (pushCommands final ws)[j]? = some (.cwpush (final && decide (j + 1 = ws.length)) w) := by
  induction ws generalizing j with
  | nil => simp at h
  | cons v ws ih =>
    rw [pushCommands_cons]
    cases j with
    | zero =>
      obtain rfl : v = w := by simpa using h
      simp
    | succ j => simpa using ih (by simpa using h)

theorem payloadWords_cons (b0 b1 b2 b3 : Byte) (rest : List Byte) :
    payloadWords (b0 :: b1 :: b2 :: b3 :: rest) = codewordOfBytes b0 b1 b2 b3 :: payloadWords rest := rfl

theorem payloadWords_length (payload : List Byte) : (payloadWords payload).length = payload.length / 4 := by
  induction payload using payloadWords.induct with
  | case1 b0 b1 b2 b3 rest ih =>
    simp only [payloadWords_cons, List.length_cons, ih]
    omega
  | case2 payload hshort =>
    have hlt : payload.length < 4 := by
      obtain _ | ⟨b0, _ | ⟨b1, _ | ⟨b2, _ | ⟨b3, rest⟩⟩⟩⟩ := payload
      · simp
      · simp
      · simp
      · simp
      · exact absurd rfl (hshort b0 b1 b2 b3 rest)
    rw [payloadWords]
    · simp; omega
    · exact hshort

/-- The `j`-th word of a payload is made of its bytes `4 * j` to `4 * j + 3`. -/
theorem payloadWords_getElem? {payload : List Byte} {j : Nat} (hj : 4 * j + 3 < payload.length) :
    ∃ b0 b1 b2 b3, payload[4 * j]? = some b0 ∧ payload[4 * j + 1]? = some b1 ∧ payload[4 * j + 2]? = some b2 ∧
      payload[4 * j + 3]? = some b3 ∧ (payloadWords payload)[j]? = some (codewordOfBytes b0 b1 b2 b3) := by
  induction j generalizing payload with
  | zero =>
    obtain _ | ⟨b0, _ | ⟨b1, _ | ⟨b2, _ | ⟨b3, rest⟩⟩⟩⟩ := payload <;> simp at hj
    exact ⟨b0, b1, b2, b3, rfl, rfl, rfl, rfl, rfl⟩
  | succ j ih =>
    obtain _ | ⟨b0, _ | ⟨b1, _ | ⟨b2, _ | ⟨b3, rest⟩⟩⟩⟩ := payload
    · simp at hj
    · simp at hj
    · simp at hj
    · simp at hj
    · exact ih (payload := rest) (by simp only [List.length_cons] at hj; omega)

theorem blockCommands_eq_wholeBlock {payload : List Byte} (hwhole : payload.length % 4 = 0) :
    blockCommands payload = wholeBlock (payload.length < maxPayload) (payloadWords payload) := by
  rw [blockCommands, wholeBlock, payloadWords_length, Nat.mul_div_cancel' (Nat.dvd_of_mod_eq_zero hwhole)]

/-- Settles O44: the pushes by induction on the codewords, the words by induction on their index; the last word of a payload
ends where the payload does. -/
theorem protocolBlock : Obligations.ProtocolBlock := by
  refine ⟨fun final ws => ⟨pushCommands_length final ws, fun j w => pushCommands_getElem? final⟩,
    fun payload hwhole hle => ?_⟩
  have hlen : 4 * (payloadWords payload).length = payload.length := by rw [payloadWords_length]; omega
  refine ⟨blockCommands_eq_wholeBlock hwhole, hlen, _, _, rfl, ?_, ?_, fun j hj => ?_⟩
  · rw [BitVec.toNat_ofNat]; omega
  · rw [pushCommands_length, hlen]
  · obtain ⟨b0, b1, b2, b3, h0, h1, h2, h3, hword⟩ := payloadWords_getElem? hj
    have hend : j + 1 = (payloadWords payload).length ↔ 4 * j + 4 = payload.length := by omega
    refine ⟨b0, b1, b2, b3, h0, h1, h2, h3, hword, ?_⟩
    rw [pushCommands_getElem? _ hword, maxPayload, Bool.decide_and, decide_eq_decide.2 hend]

/-- Settles O45: the block of no codewords opens and commits at once. -/
theorem emptyPayload : Obligations.EmptyPayload := by
  intro s hready
  have hopen : execAll (pushCommands true []) (s.openedBlock 0) = .next (s.openedBlock 0) := rfl
  have hblock := execAll_wholeBlock (ws := []) hready (Nat.zero_le _) hopen (exec_bcommit_ok rfl rfl rfl)
  rw [blockCommands_eq_wholeBlock rfl]
  exact ⟨_, hblock, rfl, rfl, rfl, rfl, rfl, rfl⟩

/-! ### The addresses of the committed output -/

theorem mem_outputAddresses {s : State} {a : Nat} :
    a ∈ outputAddresses s ↔ ∃ i, i < s.ocnt.toNat ∧ a = 0x40 + i / 4 := by
  rw [outputAddresses, List.mem_range'_1]
  constructor
  · exact fun ⟨hlo, hhi⟩ => ⟨4 * (a - 0x40), by omega, by omega⟩
  · rintro ⟨i, hi, rfl⟩
    omega

/-- Settles O52: index `i` is in the word of address `0x40 + i / 4`, one of the 104 output words. -/
theorem committedOutputReadable : Obligations.CommittedOutputReadable := by
  refine ⟨fun _ _ => mem_outputAddresses, fun s i b hcount hi hb => ?_⟩
  have hmax : 0x40 + i / 4 ≤ 0xA7 := by omega
  have haddr : (BitVec.ofNat 8 (0x40 + i / 4)).toNat = 0x40 + i / 4 := by rw [BitVec.toNat_ofNat]; omega
  refine ⟨mem_outputAddresses.2 ⟨i, hi, rfl⟩, hmax, ?_⟩
  rw [readWord_lane s (by omega) (by omega) (by omega), obufLane_byte hi hb]

end Sys2Proof.Machine
end

section
/-!
Attempts that deliver nothing, and the block after them (spec/42_block_control.md R134 to R137): every push of a block answers,
an uncorrectable codeword and an abort drop the block, and what a block commits does not depend on what the attempts before it
left in the registers and in OBUF.
-/

namespace Sys2Proof.Machine

/-! ### Every push of a block answers -/

/-- `t` is in the block opened in `s`, with room in OBUF for the bits of all the codewords still expected. -/
structure InBlockOf (s t : State) : Prop where
  xstate : t.xstate = .inblk
  clen : t.clen = s.clen
  cbits : t.cbits = s.cbits
  room : 8 * t.wptr.toNat + t.wlen.toNat + 26 * t.cwrem.toNat < 8 * (obufBytes + 1)

theorem inBlockOf_openedBlock (s : State) {n : Nat} (hn : n ≤ maxCodewords) : InBlockOf s (s.openedBlock n) :=
  ⟨rfl, rfl, rfl, by rw [openedBlock_cwrem s hn]; exact openedBlock_room s hn⟩

/-- A push in sequence, of any codeword, answers in the block; BERR is kept, and set by an uncorrectable codeword. -/
theorem InBlockOf.push {s t : State} (h : InBlockOf s t) (hcw : t.cwrem ≠ 0) {last : Bool}
    (hlast : last = true → t.cwrem = 1) (w : Word) :
    ∃ u, exec (.cwpush last w) t = .next u ∧ InBlockOf s u ∧ u.cwrem.toNat + 1 = t.cwrem.toNat ∧
      (t.berr = true ∨ ¬ decodable w → u.berr = true) := by
  obtain ⟨hblk, hclen, hcbits, hroom⟩ := h
  have hpred := cwrem_pred hcw
  have hless : 8 * t.wptr.toNat + t.wlen.toNat + 26 * (t.cwrem - 1).toNat < 8 * (obufBytes + 1) := by omega
  obtain ⟨hw, e⟩ | ⟨hw, hberr, e⟩ | ⟨hw, hberr, -⟩ := exec_cwpush_cases (w := w) hblk hcw hlast
  · exact ⟨_, e, ⟨hblk, hclen, hcbits, hless⟩, hpred, fun _ => rfl⟩
  · exact ⟨_, e, ⟨hblk, hclen, hcbits, hless⟩, hpred, fun _ => hberr⟩
  · have hfit : t.wptr.toNat + (t.wlen.toNat + 26) / 8 ≤ obufBytes := by omega
    refine ⟨_, exec_cwpush_accumulated hblk hcw hlast hw hberr hfit, ⟨hblk, hclen, hcbits, ?_⟩, hpred, fun hbad => ?_⟩
    · have hbudget := accumulate_budget t.wlen t.wbits (decodeCodeword w).data last
      have hptr := wptr_advance (d := (decodeCodeword w).data) (last := last) hfit
      change 8 * (t.wptr + BitVec.ofNat 9 (accumulate t.wlen t.wbits (decodeCodeword w).data last).adv).toNat +
        (accumulate t.wlen t.wbits (decodeCodeword w).data last).len.toNat + 26 * (t.cwrem - 1).toNat < _
      omega
    · simp [hberr, hw, decodable] at hbad

/-- The first `k` pushes of a block answer in the block; where they are all of its pushes, none is expected any more, and an
uncorrectable codeword among them has set BERR. -/
theorem InBlockOf.pushes {s t : State} (h : InBlockOf s t) (final : Bool) {ws : List Word}
    (hcount : t.cwrem.toNat = ws.length) (k : Nat) :
    ∃ u, execAll ((pushCommands final ws).take k) t = .next u ∧ InBlockOf s u ∧
      (ws.length ≤ k → u.cwrem = 0 ∧ ((t.berr = true ∨ ∃ w ∈ ws, ¬ decodable w) → u.berr = true)) := by
  induction ws generalizing t k with
  | nil => exact ⟨t, by simp, h, fun _ => ⟨BitVec.eq_of_toNat_eq hcount, by simp⟩⟩
  | cons w ws ih =>
    cases k with
    | zero => exact ⟨t, by simp, h, fun hle => by simp at hle⟩
    | succ k =>
      rw [List.length_cons] at hcount
      have hlast : (final && decide (ws = [])) = true → t.cwrem = 1 := fun hl => by
        obtain ⟨-, rfl⟩ : final = true ∧ ws = [] := by simpa using hl
        exact BitVec.eq_of_toNat_eq hcount
      obtain ⟨u, hu, hin, hpred, hberr⟩ := h.push (cwrem_ne_zero (by omega)) hlast w
      obtain ⟨v, hv, hvin, hall⟩ := ih hin (by omega) k
      refine ⟨v, ?_, hvin, fun hle => ?_⟩
      · rw [pushCommands_cons, List.take_succ_cons, execAll_cons hu, hv]
      · obtain ⟨hzero, hbad⟩ := hall (by simpa using hle)
        refine ⟨hzero, fun h => hbad ?_⟩
        rw [List.exists_mem_cons_iff, ← or_assoc] at h
        exact h.imp_left hberr

/-! ### Attempts -/

/-- `t` is where an attempt at a block leads from `s` when it ends with `code` and delivers nothing. -/
structure Dropped (code : Resp) (s t : State) : Prop where
  resp : t.resp = code
  xstate : t.xstate = .ready
  clen : t.clen = s.clen
  cbits : t.cbits = s.cbits
  ocnt : t.ocnt = 0

theorem InBlockOf.dropped {s t : State} (h : InBlockOf s t) (code : Resp) : Dropped code s (t.dropBlock.withResp code) :=
  ⟨rfl, rfl, h.clen, h.cbits, rfl⟩

theorem Dropped.committedBytes_eq_nil {code : Resp} {s t : State} (h : Dropped code s t) : committedBytes t = [] := by
  rw [committedBytes, h.ocnt]; rfl

/-- All the pushes of a block, from where it was opened to where its BCOMMIT is due. -/
theorem execAll_pushCommands_openedBlock (s : State) (final : Bool) {ws : List Word} (hn : ws.length ≤ maxCodewords) :
    ∃ t, execAll (pushCommands final ws) (s.openedBlock ws.length) = .next t ∧ InBlockOf s t ∧ t.cwrem = 0 ∧
      ((∃ w ∈ ws, ¬ decodable w) → t.berr = true) := by
  obtain ⟨t, ht, hin, hall⟩ :=
    (inBlockOf_openedBlock s hn).pushes final (openedBlock_cwrem s hn) (pushCommands final ws).length
  rw [List.take_length] at ht
  obtain ⟨hzero, hbad⟩ := hall (by simp)
  exact ⟨t, ht, hin, hzero, fun h => hbad (.inr h)⟩

theorem execAll_wholeBlock_uncorr {s : State} (hready : s.xstate = .ready) (final : Bool) {ws : List Word}
    (hn : ws.length ≤ maxCodewords) (hbad : ∃ w ∈ ws, ¬ decodable w) :
    ∃ t, execAll (wholeBlock final ws) s = .next t ∧ Dropped .uncorr s t := by
  obtain ⟨t, ht, hin, hzero, hberr⟩ := execAll_pushCommands_openedBlock s final hn
  exact ⟨_, execAll_wholeBlock hready hn ht (exec_bcommit_uncorr hin.xstate hzero (hberr hbad)), hin.dropped .uncorr⟩

theorem execAll_abortedBlock {s : State} (hready : s.xstate = .ready) (final : Bool) {ws : List Word}
    (hn : ws.length ≤ maxCodewords) (k : Nat) :
    ∃ t, execAll (abortedBlock final ws k) s = .next t ∧ Dropped .ok s t := by
  obtain ⟨t, ht, hin, -⟩ := (inBlockOf_openedBlock s hn).pushes final (openedBlock_cwrem s hn) k
  refine ⟨_, ?_, hin.dropped .ok⟩
  rw [abortedBlock, execAll_cons (exec_bbegin_ok hready hn)]
  exact execAll_concat ht (exec_babort_ok hin.xstate)

/-- Settles O42: the pushes leave the committed carry alone, and the block is dropped at its end. -/
theorem noPartialAcceptance : Obligations.NoPartialAcceptance := by
  refine ⟨fun final ws s hready hn hbad => ?_, fun final ws k s hready hn => ?_⟩
  · obtain ⟨t, ht, hd⟩ := execAll_wholeBlock_uncorr hready final hn hbad
    exact ⟨t, ht, hd.resp, hd.xstate, hd.clen, hd.cbits, hd.ocnt⟩
  · obtain ⟨t, ht, hd⟩ := execAll_abortedBlock hready final hn k
    exact ⟨t, ht, hd.resp, hd.xstate, hd.clen, hd.cbits, hd.ocnt⟩

theorem Attempt.fails.dropped {a : Attempt} (ha : a.fails) {s : State} (hready : s.xstate = .ready) :
    ∃ t, execAll a.commands s = .next t ∧ Dropped a.response s t := by
  cases a with
  | committed final ws => exact execAll_wholeBlock_uncorr hready final ha.1 ha.2
  | aborted final ws k => exact execAll_abortedBlock hready final ha k

/-- Failed attempts lead back to READY with the committed carry as it was; the last one gives the response. -/
theorem execAll_attempts {s : State} (hready : s.xstate = .ready) {attempts : List Attempt}
    (hfails : ∀ a ∈ attempts, a.fails) :
    ∃ r, execAll (attempts.flatMap Attempt.commands) s = .next r ∧ r.xstate = .ready ∧ r.clen = s.clen ∧
      r.cbits = s.cbits ∧ ∀ a, attempts.getLast? = some a → r.resp = a.response ∧ committedBytes r = [] := by
  induction attempts using List.reverseRecOn with
  | nil => exact ⟨s, rfl, hready, rfl, rfl, by simp⟩
  | append_singleton attempts a ih =>
    obtain ⟨hfails, ha⟩ := List.forall_mem_append.1 hfails
    obtain ⟨r, hr, hrready, hclen, hcbits, -⟩ := ih hfails
    obtain ⟨t, ht, hd⟩ := (ha a (List.mem_singleton_self a)).dropped hrready
    refine ⟨t, ?_, hd.xstate, hd.clen.trans hclen, hd.cbits.trans hcbits, fun b hb => ?_⟩
    · rw [List.flatMap_append, List.flatMap_singleton, execAll_append hr, ht]
    · rw [List.getLast?_concat] at hb
      cases hb
      exact ⟨hd.resp, hd.committedBytes_eq_nil⟩

/-! ### The same block from two states -/

/-- `s` and `t` agree in everything that decides what the block in progress will commit: its registers and its bytes so far,
not the rest of OBUF. -/
structure AgreeInBlock (s t : State) : Prop where
  xstate : t.xstate = s.xstate
  berr : t.berr = s.berr
  lseen : t.lseen = s.lseen
  cwrem : t.cwrem = s.cwrem
  wptr : t.wptr = s.wptr
  wlen : t.wlen = s.wlen
  wbits : t.wbits = s.wbits
  clen : t.clen = s.clen
  cbits : t.cbits = s.cbits
  bytes : t.blockBytes = s.blockBytes

theorem AgreeInBlock.accumulated {s t : State} (h : AgreeInBlock s t) (d : Data) (last : Bool)
    (hfit : s.wptr.toNat + (s.wlen.toNat + 26) / 8 ≤ obufBytes) :
    AgreeInBlock (s.accumulated d last) (t.accumulated d last) := by
  have hfit' : t.wptr.toNat + (t.wlen.toNat + 26) / 8 ≤ obufBytes := by rw [h.wptr, h.wlen]; exact hfit
  exact
    { h with
      lseen := by simp [State.accumulated, h.lseen]
      cwrem := by simp [State.accumulated, h.cwrem]
      wptr := by simp [State.accumulated, h.wptr, h.wlen, h.wbits]
      wlen := by simp [State.accumulated, h.wlen, h.wbits]
      wbits := by simp [State.accumulated, h.wlen, h.wbits]
      bytes := by rw [blockBytes_accumulated hfit, blockBytes_accumulated hfit', h.bytes, h.wlen, h.wbits] }

theorem AgreeInBlock.counted {s t : State} (h : AgreeInBlock s t) (last : Bool) (d : Decoded) :
    AgreeInBlock ((s.countCodeword last).withDecoded d) ((t.countCodeword last).withDecoded d) :=
  { h with
    lseen := by simp [h.lseen]
    cwrem := by simp [h.cwrem] }

/-- A push that answers in one of two agreeing states answers in the other, and they agree after it. -/
theorem AgreeInBlock.cwpush {s t u : State} (h : AgreeInBlock s t) {last : Bool} {w : Word}
    (e : exec (.cwpush last w) s = .next u) : ∃ v, exec (.cwpush last w) t = .next v ∧ AgreeInBlock u v := by
  by_cases hseq : s.xstate ≠ .inblk ∨ s.cwrem = 0 ∨ (last = true ∧ s.cwrem ≠ 1)
  · cases (exec_cwpush_seq w hseq).symm.trans e
    rw [← h.xstate, ← h.cwrem] at hseq
    exact ⟨_, exec_cwpush_seq w hseq, { h with }⟩
  push Not at hseq
  obtain ⟨hblk, hcw, hlast⟩ := hseq
  have hblk' := h.xstate.trans hblk
  have hcw' : t.cwrem ≠ 0 := by rwa [h.cwrem]
  have hlast' : last = true → t.cwrem = 1 := by rwa [h.cwrem]
  obtain ⟨hw, e'⟩ | ⟨hw, hberr, e'⟩ | ⟨hw, hberr, e'⟩ := exec_cwpush_cases (w := w) hblk hcw hlast
  · cases e'.symm.trans e
    exact ⟨_, exec_cwpush_uncorr hblk' hcw' hlast' hw, { h.counted last (decodeCodeword w) with berr := rfl }⟩
  · cases e'.symm.trans e
    exact ⟨_, exec_cwpush_abandoned hblk' hcw' hlast' hw (h.berr.trans hberr),
      { h.counted last (decodeCodeword w) with }⟩
  · obtain ⟨hfit, e''⟩ | ⟨-, e''⟩ := pushData_cases (decodeCodeword w).data last
      ((s.countCodeword last).withDecoded (decodeCodeword w)) <;> cases (e'.trans e'').symm.trans e
    have hfit' : t.wptr.toNat + (t.wlen.toNat + 26) / 8 ≤ obufBytes := by rw [h.wptr, h.wlen]; exact hfit
    exact ⟨_, exec_cwpush_accumulated hblk' hcw' hlast' hw (h.berr.trans hberr) hfit',
      { h.accumulated (decodeCodeword w).data last hfit with }⟩

theorem AgreeInBlock.pushes {s t u : State} (h : AgreeInBlock s t) {final : Bool} {ws : List Word}
    (e : execAll (pushCommands final ws) s = .next u) :
    ∃ v, execAll (pushCommands final ws) t = .next v ∧ AgreeInBlock u v := by
  induction ws generalizing s t with
  | nil => cases e; exact ⟨t, rfl, h⟩
  | cons w ws ih =>
    rw [pushCommands_cons] at e ⊢
    cases hpush : exec (.cwpush (final && decide (ws = [])) w) s with
    | next s' =>
      obtain ⟨t', ht', h'⟩ := h.cwpush hpush
      rw [execAll_cons hpush] at e
      rw [execAll_cons ht']
      exact ih h' e
    | fault f => rw [execAll, hpush] at e; cases e
    | refused r => rw [execAll, hpush] at e; cases e

/-- A block opened from the same committed carry: nothing else of the state before is in it. -/
theorem agreeInBlock_openedBlock {s r : State} (hclen : r.clen = s.clen) (hcbits : r.cbits = s.cbits) (n : Nat) :
    AgreeInBlock (s.openedBlock n) (r.openedBlock n) :=
  ⟨rfl, rfl, rfl, rfl, rfl, hclen, hcbits, hclen, hcbits, rfl⟩

/-- Two states in which a command ended show the host the same response, state, committed carry and output. -/
structure SameOutcome (s t : State) : Prop where
  resp : t.resp = s.resp
  xstate : t.xstate = s.xstate
  clen : t.clen = s.clen
  cbits : t.cbits = s.cbits
  ocnt : t.ocnt = s.ocnt
  output : committedBytes t = committedBytes s

/-- The BCOMMIT that is due ends two agreeing blocks with the same outcome. -/
theorem AgreeInBlock.bcommit {s t : State} (h : AgreeInBlock s t) (hblk : s.xstate = .inblk) (hzero : s.cwrem = 0) :
    ∃ u v, exec .bcommit s = .next u ∧ exec .bcommit t = .next v ∧ SameOutcome u v := by
  have hblk' := h.xstate.trans hblk
  have hzero' := h.cwrem.trans hzero
  cases hberr : s.berr with
  | true => exact ⟨_, _, exec_bcommit_uncorr hblk hzero hberr, exec_bcommit_uncorr hblk' hzero' (h.berr.trans hberr),
      ⟨rfl, rfl, h.clen, h.cbits, rfl, rfl⟩⟩
  | false => exact ⟨_, _, exec_bcommit_ok hblk hzero hberr, exec_bcommit_ok hblk' hzero' (h.berr.trans hberr),
      ⟨rfl, by simp [h.lseen], h.wlen, h.wbits, h.wptr, h.bytes⟩⟩

theorem execAll_wholeBlock_sameOutcome {s r : State} (hs : s.xstate = .ready) (hr : r.xstate = .ready)
    (hclen : r.clen = s.clen) (hcbits : r.cbits = s.cbits) (final : Bool) {ws : List Word}
    (hn : ws.length ≤ maxCodewords) :
    ∃ u t, execAll (wholeBlock final ws) s = .next u ∧ execAll (wholeBlock final ws) r = .next t ∧
      SameOutcome u t := by
  obtain ⟨s', hs', hin, hzero, -⟩ := execAll_pushCommands_openedBlock s final hn
  obtain ⟨r', hr', hagree⟩ := (agreeInBlock_openedBlock hclen hcbits ws.length).pushes hs'
  obtain ⟨u, t, hu, ht, hsame⟩ := hagree.bcommit hin.xstate hzero
  exact ⟨u, t, execAll_wholeBlock hs hn hs' hu, execAll_wholeBlock hr hn hr' ht, hsame⟩

/-- Settles O43: the attempts leave READY and the committed carry, and a block takes nothing else from the state before it. -/
theorem retransmissionDeterminism : Obligations.RetransmissionDeterminism := by
  intro final attempts ws s hready hfails hn
  obtain ⟨r, hr, hrready, hclen, hcbits, hlast⟩ := execAll_attempts hready hfails
  obtain ⟨u, t, hu, ht, hsame⟩ := execAll_wholeBlock_sameOutcome hready hrready hclen hcbits final hn
  exact ⟨r, t, u, hr, hlast, ht, hu, hsame.resp, hsame.xstate, hsame.clen, hsame.cbits, hsame.ocnt, hsame.output⟩

end Sys2Proof.Machine
end

section
/-!
How commands end (spec/60_exceptions.md): a rejected command writes RESP alone (R162), the one response of every raw command
in the order of precedence (R160, R163), and BERR until BBEGIN or XRST (R164). Between commands all state is retained (R171).
-/

namespace Sys2Proof.Machine

/-! ### Rejected commands -/

/-- Everything a raw command can do, where it answers a next state: it is rejected by its byte, or performed. -/
theorem performCommand_next_cases {c : Command} {s t : State} (h : performCommand c s = .next t) :
    (∃ e, decodeCmd c = .error e ∧ t = s.withResp .illegal) ∨ ∃ i, decodeCmd c = .ok i ∧ exec i s = .next t := by
  cases hdec : decodeCmd c with
  | ok i => exact .inr ⟨i, rfl, (performCommand_of_decode_ok hdec s).symm.trans h⟩
  | error e =>
    cases (performCommand_of_illegal ((decodeCmd_error_iff c).1 ⟨e, hdec⟩) s).symm.trans h
    exact .inl ⟨e, rfl, rfl⟩

/-- The forms of a command that end with another response than OK and UNCORR are those of `reject`, and NOP, which keeps
the response it finds. -/
theorem eq_withResp_of_rejected {i : Instr} {s t : State} (h : exec i s = .next t) (hok : t.resp ≠ .ok)
    (huncorr : t.resp ≠ .uncorr) : t = s.withResp t.resp := by
  obtain ⟨-, rfl⟩ | ⟨-, rfl⟩ | ⟨w, -, rfl⟩ | ⟨len, -, hbbegin⟩ | ⟨-, hbabort⟩ | ⟨-, hbcommit⟩ | ⟨last, w, -, hcwpush⟩ :=
    exec_next_cases h
  · rfl
  · exact absurd rfl hok
  · exact absurd rfl hok
  · obtain ⟨-, rfl⟩ | ⟨-, -, rfl⟩ | ⟨-, -, -, rfl⟩ := hbbegin
    · rfl
    · rfl
    · exact absurd rfl hok
  · obtain ⟨-, rfl⟩ | ⟨-, rfl⟩ := hbabort
    · rfl
    · exact absurd rfl hok
  · obtain ⟨-, rfl⟩ | ⟨-, -, -, rfl⟩ | ⟨-, -, -, rfl⟩ := hbcommit
    · rfl
    · exact absurd rfl huncorr
    · exact absurd rfl hok
  · obtain ⟨-, rfl⟩ | ⟨-, -, -, ⟨-, rfl⟩ | ⟨-, -, rfl⟩ | ⟨-, -, -, rfl⟩⟩ := hcwpush
    · rfl
    · exact absurd rfl huncorr
    · exact absurd rfl hok
    · exact absurd rfl hok

theorem performCommand_keeps_inflight {c : Command} {s t : State} (h : performCommand c s = .next t) :
    t.inflight = s.inflight := by
  obtain ⟨e, -, rfl⟩ | ⟨i, -, hexec⟩ := performCommand_next_cases h
  · rfl
  · exact (exec_keeps_ports hexec).1

/-- Settles O19: the forms of a command with such a response are those of `reject`, and a presented command completes. -/
theorem rejectWritesOnlyResp : Obligations.RejectWritesOnlyResp := by
  refine ⟨fun _ _ => rfl, fun c s t h hresp => ?_, fun c s t h => ?_⟩
  · obtain ⟨e, -, rfl⟩ | ⟨i, -, hexec⟩ := performCommand_next_cases h
    · rfl
    · have hok : t.resp ≠ .ok := fun e => by simp [e] at hresp
      have huncorr : t.resp ≠ .uncorr := fun e => by simp [e] at hresp
      exact eq_withResp_of_rejected hexec hok huncorr
  · obtain ⟨u, hu, rfl⟩ := completeCommand_next (c := c) (s := s) h
    exact ⟨rfl, performCommand_keeps_inflight hu⟩

/-! ### The order of precedence -/

/-- Settles O20: the tests of each form of a command pick one branch of the order of precedence. -/
theorem responsePrecedence : Obligations.ResponsePrecedence := by
  intro c s t h
  obtain ⟨e, hdec, rfl⟩ | ⟨i, hdec, hexec⟩ := performCommand_next_cases h <;> rw [hdec]
  · rfl
  obtain ⟨rfl, rfl⟩ | ⟨rfl, rfl⟩ | ⟨w, rfl, rfl⟩ | ⟨len, rfl, hbbegin⟩ | ⟨rfl, hbabort⟩ | ⟨rfl, hbcommit⟩ |
    ⟨last, w, rfl, hcwpush⟩ := exec_next_cases hexec
  · rfl
  · rfl
  · rfl
  · obtain ⟨hout, rfl⟩ | ⟨hready, hbad, rfl⟩ | ⟨hready, hwhole, hle, rfl⟩ := hbbegin
    · exact (if_pos hout).symm
    · have hlen : ¬(len.toNat % 4 = 0 ∧ len.toNat ≤ 512) := by rw [maxPayload] at hbad; omega
      exact ((if_neg (not_not_intro hready)).trans (if_neg hlen)).symm
    · exact ((if_neg (not_not_intro hready)).trans (if_pos ⟨hwhole, hle⟩)).symm
  · obtain ⟨hout, rfl⟩ | ⟨hblk, rfl⟩ := hbabort
    · exact (if_neg hout).symm
    · exact (if_pos hblk).symm
  · obtain ⟨hseq, rfl⟩ | ⟨hblk, hcw, hberr, rfl⟩ | ⟨hblk, hcw, hberr, rfl⟩ := hbcommit
    · exact (if_pos hseq).symm
    · simp [hblk, hcw, hberr]
    · simp [hblk, hcw, hberr]
  · obtain ⟨hseq, rfl⟩ | ⟨hblk, hcw, hlast, hform⟩ := hcwpush
    · exact (if_pos hseq).symm
    · have hinseq : ¬(s.xstate ≠ .inblk ∨ s.cwrem = 0 ∨ (last = true ∧ s.cwrem ≠ 1)) := by tauto
      obtain ⟨hw, rfl⟩ | ⟨hw, -, rfl⟩ | ⟨hw, -, -, rfl⟩ := hform
      · exact ((if_neg hinseq).trans (if_pos hw)).symm
      · exact ((if_neg hinseq).trans (if_neg hw)).symm
      · exact ((if_neg hinseq).trans (if_neg hw)).symm

/-! ### BERR -/

/-- No form of a push clears BERR. -/
theorem exec_cwpush_keeps_berr {last : Bool} {w : Word} {s t : State} (h : exec (.cwpush last w) s = .next t)
    (hberr : s.berr = true) : t.berr = true := by
  by_cases hseq : s.xstate ≠ .inblk ∨ s.cwrem = 0 ∨ (last = true ∧ s.cwrem ≠ 1)
  · cases (exec_cwpush_seq w hseq).symm.trans h
    exact hberr
  push Not at hseq
  obtain ⟨hblk, hcw, hlast⟩ := hseq
  cases (exec_cwpush_of_berr hblk hcw hlast hberr).symm.trans h
  exact hberr

/-- Settles O24: of the three writers of BERR, a push alone is left, and it does not clear it. -/
theorem berrIsSticky : Obligations.BerrIsSticky := by
  intro i s t h hberr hi
  obtain ⟨-, -, hkept, -⟩ := registerWriters i s t h
  refine ⟨?_, ?_⟩
  · cases i with
    | xrst | bbegin => exact absurd hi (by simp [mnemonicOf])
    | cwpush last w => exact exec_cwpush_keeps_berr h hberr
    | nop | bcommit | babort | cwdec =>
      obtain ⟨hsame, -⟩ := hkept (by simp [mnemonicOf])
      exact hsame.trans hberr
  · rintro rfl hblk hcw
    cases (exec_bcommit_uncorr hblk hcw hberr).symm.trans h
    exact ⟨rfl, rfl, rfl, rfl⟩

/-! ### Between commands -/

theorem step_of_idle {s : State} (hidle : s.inflight = none) (hhost : s.host = []) :
    step s = .next (s.withDone false) := by
  unfold step transact
  rw [hidle, hhost]

theorem cmdReady_of_idle {p : Pins} {s : State} (hidle : s.inflight = none) (hrst : p.rst = false) :
    cmdReady p s = true := by
  simp [cmdReady, hidle, hrst]

/-- An edge at which an idle block is presented no command takes its read and no more. -/
theorem tick_of_idle {p : Pins} {s : State} (hidle : s.inflight = none) (hrst : p.rst = false)
    (hvalid : p.cmdValid = false) : tick p s = .next ((hostRead p.rdAddr s).withDone false) := by
  simp [tick, sampleRead, accepts, hidle, hrst, hvalid]

/-- Settles O56: an idle step ends the pulse, and an idle edge takes a read, which changes no register. -/
theorem idleRetainsState : Obligations.IdleRetainsState := by
  refine fun s hidle => ⟨fun hhost => ?_, fun p hrst => ⟨cmdReady_of_idle hidle hrst, fun hvalid => ?_⟩⟩
  · exact step_of_idle hidle hhost
  · exact ⟨_, tick_of_idle hidle hrst hvalid, rfl, hidle, rfl⟩

end Sys2Proof.Machine
end

section
/-!
The readout window (spec/70_reset_and_hazards.md R185): which commands close the committed output and which leave it readable.
-/

namespace Sys2Proof.Machine

/-- A command whose response is SEQ or MALFORMED leaves the committed output: it is rejected, or it is a NOP. -/
theorem committedBytes_of_rejected {i : Instr} {s t : State} (h : exec i s = .next t)
    (hresp : t.resp ∈ [.seq, .malformed]) : committedBytes t = committedBytes s := by
  have hok : t.resp ≠ .ok := fun e => by simp [e] at hresp
  have huncorr : t.resp ≠ .uncorr := fun e => by simp [e] at hresp
  rw [eq_withResp_of_rejected h hok huncorr]
  rfl

theorem committedBytes_of_ocnt_zero {s : State} (h : s.ocnt = 0) : committedBytes s = [] := by
  rw [committedBytes, h]; rfl

/-- A push may write bytes of OBUF, but inside a block, where OCNT is 0. -/
theorem committedBytes_of_cwpush {last : Bool} {w : Word} {s t : State} (hs : Inv s)
    (h : exec (.cwpush last w) s = .next t) : committedBytes t = committedBytes s := by
  by_cases hblk : s.xstate = .inblk
  · have hzero : s.ocnt = 0 := hs.noOutputInBlock hblk
    obtain ⟨-, -, -, hocnt, -⟩ := registerWriters _ s t h
    have hkept : t.ocnt = s.ocnt := hocnt (by simp [mnemonicOf])
    rw [committedBytes_of_ocnt_zero hzero, committedBytes_of_ocnt_zero (hkept.trans hzero)]
  · cases (exec_cwpush_seq w (.inl hblk)).symm.trans h
    rfl

/-- The commands that end the readout window open a block, drop one, or clear every register. -/
theorem ocnt_zero_of_closes {i : Instr} {s t : State} (h : exec i s = .next t)
    (hcloses : mnemonicOf i = .bbegin ∧ t.resp = .ok ∨ mnemonicOf i = .xrst ∨ mnemonicOf i = .babort ∧ t.resp = .ok ∨
      mnemonicOf i = .bcommit ∧ t.resp = .uncorr) : t.ocnt = 0 := by
  obtain ⟨rfl, rfl⟩ | ⟨rfl, rfl⟩ | ⟨w, rfl, rfl⟩ | ⟨len, rfl, hbbegin⟩ | ⟨rfl, hbabort⟩ | ⟨rfl, hbcommit⟩ |
    ⟨last, w, rfl, -⟩ := exec_next_cases h
  · simp [mnemonicOf] at hcloses
  · rfl
  · simp [mnemonicOf] at hcloses
  · obtain ⟨-, rfl⟩ | ⟨-, -, rfl⟩ | ⟨-, -, -, rfl⟩ := hbbegin
    · simp [mnemonicOf] at hcloses
    · simp [mnemonicOf] at hcloses
    · rfl
  · obtain ⟨-, rfl⟩ | ⟨-, rfl⟩ := hbabort
    · simp [mnemonicOf] at hcloses
    · rfl
  · obtain ⟨-, rfl⟩ | ⟨-, -, -, rfl⟩ | ⟨-, -, -, rfl⟩ := hbcommit
    · simp [mnemonicOf] at hcloses
    · rfl
    · simp [mnemonicOf] at hcloses
  · simp [mnemonicOf] at hcloses

/-- Settles O54: the closers set OCNT to 0; a NOP, a CWDEC, a push and a rejected command leave the output as it was. -/
theorem readoutWindow : Obligations.ReadoutWindow := by
  refine fun i s t hs h => ⟨ocnt_zero_of_closes h, ?_⟩
  rintro (hkeeps | hrejected)
  · cases i with
    | nop => cases h; rfl
    | cwpush last w => exact committedBytes_of_cwpush hs h
    | cwdec w => cases h; rfl
    | xrst | bbegin | bcommit | babort => simp [mnemonicOf] at hkeeps
  · exact committedBytes_of_rejected h hrejected

end Sys2Proof.Machine
end

section
/-!
The clock (spec/70_reset_and_hazards.md R180, R181, R183, R184, R186, R187): the reset event, the handshake as a refinement of
the transaction, and reads during a command.
-/

namespace Sys2Proof.Machine

/-! ### The registered read of an edge -/

/-- An edge at which the block is not ready reads a draw. -/
theorem sampleRead_of_not_ready {p : Pins} {s : State} (h : cmdReady p s = false) :
    sampleRead p s = hostReadDuring s := by
  cases hrst : p.rst with
  | true => simp [sampleRead, hrst]
  | false =>
    cases hf : s.inflight with
    | some f => simp [sampleRead, hf]
    | none => simp [cmdReady, hrst, hf] at h

theorem cmdReady_of_rst {p : Pins} (s : State) (h : p.rst = true) : cmdReady p s = false := by
  simp [cmdReady, h]

theorem cmdReady_of_busy (p : Pins) {s : State} (h : s.inflight ≠ none) : cmdReady p s = false := by
  cases hf : s.inflight with
  | none => exact absurd hf h
  | some f => simp [cmdReady, hf]

/-! ### The reset event -/

theorem tick_of_rst {p : Pins} (s : State) (h : p.rst = true) : tick p s = .next (portReset (hostReadDuring s)) := by
  rw [← sampleRead_of_not_ready (cmdReady_of_rst s h)]
  simp [tick, h]

/-- With no committed output every lane of an output word is a draw. -/
theorem obufWord_of_ocnt_zero {s : State} (h : s.ocnt = 0) (j : Nat) :
    obufWord s j = Config.freeByte s.draws 0 ++ Config.freeByte s.draws 1 ++ Config.freeByte s.draws 2 ++
      Config.freeByte s.draws 3 := by
  have hlane (r : Nat) (hr : r < 4) : obufLane s (4 * j + r) = Config.freeByte s.draws r := by
    rw [obufLane_draw (by simp [h]), Nat.mul_add_mod, Nat.mod_eq_of_lt hr]
  have hlane0 : obufLane s (4 * j) = Config.freeByte s.draws 0 := hlane 0 (by decide)
  rw [obufWord, hlane0, hlane 1 (by decide), hlane 2 (by decide), hlane 3 (by decide)]

theorem readWord_of_ocnt_zero {s : State} (h : s.ocnt = 0) {j : Nat} (hj : j < 104) :
    readWord s (BitVec.ofNat 8 (0x40 + j)) = Config.freeByte s.draws 0 ++ Config.freeByte s.draws 1 ++
      Config.freeByte s.draws 2 ++ Config.freeByte s.draws 3 := by
  have haddr : (BitVec.ofNat 8 (0x40 + j)).toNat = 0x40 + j := by rw [BitVec.toNat_ofNat]; omega
  rw [readWord_obuf s (by omega) (by omega), obufWord_of_ocnt_zero h]

/-- Settles O7: the edge clears every register and keeps OBUF, of which OCNT = 0 makes every lane a draw. -/
theorem resetEvent : Obligations.ResetEvent := by
  intro p s hrst
  have hclear : (portReset (hostReadDuring s)).ocnt = 0 := rfl
  refine ⟨cmdReady_of_rst s hrst, _, tick_of_rst s hrst, ?_, rfl, rfl, rfl, fun j hj => ?_, fun q => cmdReady_of_idle rfl⟩
  · exact ⟨rfl, rfl, rfl, rfl, rfl, rfl, rfl, rfl, rfl, rfl, rfl, rfl, rfl, rfl, rfl, rfl⟩
  · exact ⟨_, _, _, _, readWord_of_ocnt_zero hclear hj, rfl, rfl, rfl, rfl⟩

/-- Settles O8: both are `clearRegisters`, followed by the port's own writes. -/
theorem xrstMatchesReset : Obligations.XrstMatchesReset := by
  intro s t u _ hxrst hreset
  rw [step_present, performCommand_of_decode_ok (c := encode .xrst) (decodeCmd_xrst 0)] at hxrst
  cases hxrst
  cases hreset
  exact ⟨rfl, rfl, rfl, rfl, rfl⟩

/-! ### The block not ready -/

/-- Settles O57: the edge reads a draw and resets or goes on with the command in progress, and no branch of it looks at the
command pins. -/
theorem busyBlockAcceptsNothing : Obligations.BusyBlockAcceptsNothing := by
  intro s p q hready hrst _
  have hready' : cmdReady q s = false := by rw [← hready, cmdReady, cmdReady, hrst]
  refine ⟨by simp [accepts, hready], ?_⟩
  unfold tick
  rw [sampleRead_of_not_ready hready, sampleRead_of_not_ready hready', hrst]
  cases hq : q.rst with
  | true => rfl
  | false =>
    cases hf : s.inflight with
    | some f => rfl
    | none => simp [cmdReady, hf, hq] at hready'

/-! ### The handshake -/

theorem tickAll_cons {p : Pins} {ps : List Pins} {s t : State} (h : tick p s = .next t) :
    tickAll (p :: ps) s = tickAll ps t := by
  rw [tickAll, h]

/-- Edges whose first part answers `t` go on from `t`. -/
theorem tickAll_append {ps qs : List Pins} {s t : State} (h : tickAll ps s = .next t) :
    tickAll (ps ++ qs) s = tickAll qs t := by
  induction ps generalizing s with
  | nil => cases h; rfl
  | cons p ps ih =>
    rw [List.cons_append]
    cases e : tick p s with
    | next u => rw [tickAll_cons e] at h ⊢; exact ih h
    | fault f => rw [tickAll, e] at h; cases h
    | refused r => rw [tickAll, e] at h; cases h

/-- Command `c`, accepted in the registers of `s`, is in progress in `u` and completes at the `left`-th edge from now. -/
structure InProgress (c : Command) (s : State) (left : Nat) (u : State) : Prop where
  block : u.block = s.block
  inflight : u.inflight = some ⟨c, left⟩
  done : u.done = false

theorem tick_accepts {p : Pins} {s : State} (hidle : s.inflight = none) (hrst : p.rst = false) (hvalid : p.cmdValid = true) :
    ∃ u, tick p s = .next u ∧ InProgress p.command s (cmdLatency p.command s) u := by
  have haccept : tick p s =
      .next (((sampleRead p s).withInflight (some ⟨p.command, cmdLatency p.command s⟩)).withDone false) := by
    simp [tick, hrst, hidle, hvalid]
  exact ⟨_, haccept, sampleRead_block p s, rfl, rfl⟩

theorem InProgress.tick_waits {c : Command} {s u : State} {left : Nat} (h : InProgress c s (left + 1) u) (hleft : left ≠ 0)
    {q : Pins} (hrst : q.rst = false) : ∃ v, tick q u = .next v ∧ InProgress c s left v := by
  have hwait : tick q u = .next (((sampleRead q u).withInflight (some ⟨c, left⟩)).withDone false) := by
    simp [tick, hrst, h.inflight, hleft]
  exact ⟨_, hwait, (sampleRead_block q u).trans h.block, rfl, rfl⟩

/-- With edges still to come the command stays in progress. -/
theorem InProgress.tickAll_waits {c : Command} {s u : State} {left : Nat} {qs : List Pins}
    (h : InProgress c s (left + qs.length) u) (hleft : left ≠ 0) (hrst : ∀ q ∈ qs, q.rst = false) :
    ∃ v, tickAll qs u = .next v ∧ InProgress c s left v := by
  induction qs generalizing u with
  | nil => exact ⟨u, rfl, h⟩
  | cons q qs ih =>
    obtain ⟨hq, hqs⟩ := List.forall_mem_cons.1 hrst
    obtain ⟨v, hv, hprogress⟩ := InProgress.tick_waits (left := left + qs.length) h (by omega) hq
    rw [tickAll_cons hv]
    exact ih hprogress hqs

/-- A command completes alike on the same registers, whatever the ports and the model's own fields hold. -/
theorem completeCommand_congr {c : Command} {s t u : State} (hblock : u.block = s.block)
    (h : completeCommand c s = .next t) :
    ∃ v, completeCommand c u = .next v ∧ v.block = t.block ∧ v.done = true ∧ v.inflight = none := by
  obtain ⟨r, hr, rfl⟩ := completeCommand_next h
  rw [performCommand_eq_block, State.block_withInflight] at hr
  cases hb : performCommand c s.block with
  | fault f => rw [hb] at hr; cases hr
  | refused f => rw [hb] at hr; cases hr
  | next b =>
    rw [hb] at hr
    cases hr
    refine ⟨(State.withBlock b (u.withInflight none)).withDone true, ?_, rfl, rfl, rfl⟩
    rw [completeCommand, performCommand_eq_block, State.block_withInflight, hblock, hb]
    rfl

/-- At its last edge a command completes as the transaction does. -/
theorem InProgress.tick_completes {c : Command} {s t u : State} (h : InProgress c s 1 u) {q : Pins} (hrst : q.rst = false)
    (hstep : step (s.present c) = .next t) :
    ∃ v, tick q u = .next v ∧ v.block = t.block ∧ v.done = true ∧ v.inflight = none := by
  have hlast : tick q u = completeCommand c (sampleRead q u) := by simp [tick, hrst, h.inflight]
  rw [hlast]
  exact completeCommand_congr ((sampleRead_block q u).trans h.block) hstep

/-- The pulse on `done` ends at the edge after it. -/
theorem tick_done_of_idle {q : Pins} {u v : State} (hidle : u.inflight = none) (h : tick q u = .next v) :
    v.done = false := by
  obtain ⟨-, e⟩ | ⟨f, -, hf, -⟩ | ⟨f, -, hf, -⟩ | ⟨-, -, -, e⟩ | ⟨-, -, -, e⟩ := tick_cases q u
  · cases e.symm.trans h; rfl
  · simp [hidle] at hf
  · simp [hidle] at hf
  · cases e.symm.trans h; rfl
  · cases e.symm.trans h; rfl

/-- Settles O55: the command stays in progress up to its last edge, at which it completes on the registers it was accepted
in. -/
theorem handshakeRefinesTransaction : Obligations.HandshakeRefinesTransaction := by
  intro s t p ps hidle hrst hvalid hpins hlen hstep
  have hpos : 1 ≤ cmdLatency p.command s := by rw [cmdLatency]; omega
  obtain ⟨a, ha, haccepted⟩ := tick_accepts hidle hrst hvalid
  rw [← hlen] at hpos haccepted ⊢
  refine ⟨hpos, fun k hk => ?_, ?_⟩
  · have hsplit : ps.length = (ps.length - k) + (ps.take k).length := by rw [List.length_take]; omega
    rw [hsplit] at haccepted
    obtain ⟨u, hu, hbusy⟩ := haccepted.tickAll_waits (by omega) fun q hq => hpins q (List.mem_of_mem_take hq)
    rw [tickAll_cons ha]
    exact ⟨u, hu, hbusy.block, hbusy.done, fun q => cmdReady_of_busy q (by simp [hbusy.inflight])⟩
  · obtain ⟨qs, q, rfl⟩ := (List.eq_nil_or_concat' ps).resolve_left (List.ne_nil_of_length_pos hpos)
    rw [List.length_append, List.length_singleton, Nat.add_comm] at haccepted
    obtain ⟨u, hu, hbusy⟩ := haccepted.tickAll_waits Nat.one_ne_zero fun r hr => hpins r (List.mem_append_left _ hr)
    obtain ⟨v, hv, hblock, hdone, hready⟩ := hbusy.tick_completes (hpins q (by simp)) hstep
    refine ⟨v, ?_, hblock, hdone, hready, fun r => cmdReady_of_idle hready, fun r w => tick_done_of_idle hready⟩
    rw [tickAll_cons ha, tickAll_append hu, tickAll_cons hv]
    rfl

/-! ### Reads during a command -/

theorem completeCommand_keeps_read {c : Command} {s t : State} (h : completeCommand c s = .next t) :
    t.rdData = s.rdData ∧ t.draws = s.draws := by
  obtain ⟨u, hu, rfl⟩ := completeCommand_next h
  obtain ⟨e, -, rfl⟩ | ⟨i, -, hexec⟩ := performCommand_next_cases hu
  · exact ⟨rfl, rfl⟩
  · obtain ⟨-, -, hrd, -, hdraws⟩ := exec_keeps_ports hexec
    exact ⟨hrd, hdraws⟩

/-- Whatever an edge does after its read, the word read stays on `rd_data`. -/
theorem tick_keeps_read {p : Pins} {s t : State} (h : tick p s = .next t) :
    t.rdData = (sampleRead p s).rdData ∧ t.draws = (sampleRead p s).draws := by
  obtain ⟨-, e⟩ | ⟨f, -, -, -, e⟩ | ⟨f, -, -, -, e⟩ | ⟨-, -, -, e⟩ | ⟨-, -, -, e⟩ := tick_cases p s <;> rw [e] at h
  · cases h; exact ⟨rfl, rfl⟩
  · exact completeCommand_keeps_read h
  · cases h; exact ⟨rfl, rfl⟩
  · cases h; exact ⟨rfl, rfl⟩
  · cases h; exact ⟨rfl, rfl⟩

theorem step_of_readDuring {s : State} {a : Byte} {rest : List HostEvent} (hidle : s.inflight = none)
    (hhost : s.host = .readDuring a :: rest) : step s = .next ((hostReadDuring (s.withHost rest)).withDone false) := by
  unfold step transact
  rw [hidle, hhost]
  rfl

/-- Settles O58: the registered read of each kind of edge, and the host action that reads during a command. -/
theorem readDuringCommandIsDraw : Obligations.ReadDuringCommandIsDraw := by
  refine ⟨fun s t p hbusy h => ?_, fun s a rest hidle hhost => ?_, fun s p hidle hrst hvalid => ?_⟩
  · obtain ⟨hrd, hdraws⟩ := tick_keeps_read h
    rw [sampleRead_of_not_ready (cmdReady_of_busy p hbusy)] at hrd hdraws
    exact ⟨hrd, hdraws⟩
  · exact ⟨_, step_of_readDuring hidle hhost, rfl, rfl, rfl⟩
  · exact ⟨_, tick_of_idle hidle hrst hvalid, rfl, rfl⟩

end Sys2Proof.Machine
end

section
/-!
Proofs: a push past the end of OBUF, which no run from reset reaches (spec/41_accumulator.md R118; log 6). It stops at the
last index it would write.
-/

namespace Sys2Proof.Machine

/-- The converse of `exec_cwpush_accumulated`: bytes that do not fit stop the push. -/
theorem exec_cwpush_overrun {last : Bool} {w : Word} {s : State} (hblk : s.xstate = .inblk) (hcw : s.cwrem ≠ 0)
    (hlast : last = true → s.cwrem = 1) (hw : decodable w) (hberr : s.berr = false)
    (hover : obufBytes < s.wptr.toNat + (s.wlen.toNat + 26) / 8) :
    exec (.cwpush last w) s = .fault (.obufRange (s.wptr.toNat + (s.wlen.toNat + 26) / 8 - 1)) := by
  obtain ⟨hw', -⟩ | ⟨-, hberr', -⟩ | ⟨-, -, e⟩ := exec_cwpush_cases (w := w) hblk hcw hlast
  · exact absurd hw' hw
  · simp [hberr] at hberr'
  · obtain ⟨hfit, -⟩ | ⟨-, e'⟩ := pushData_cases (decodeCodeword w).data last
      ((s.countCodeword last).withDecoded (decodeCodeword w))
    · exact absurd hover (Nat.not_lt.2 hfit)
    · exact e.trans e'

/-- Settles O13: the push stops at the last of the indices it would write. -/
theorem cwpushPastBufferStops : Obligations.CwpushPastBufferStops := by
  intro last w s hblk hcw hlast hberr hw hover
  rw [accumulate_bytes_length] at hover
  exact ⟨_, Nat.le_sub_one_of_lt hover, exec_cwpush_overrun hblk hcw hlast hw hberr hover⟩

end Sys2Proof.Machine
end
